-- ==== Sys2Proof/Word.lean ====
section
/-! DEFINITION. The word types of B64CORE (00_scope.md R6, R7): every value is unsigned. -/

namespace Sys2Proof

/-- A data byte or a character code: BYTE_W = CHAR_W = 8 bits (R6). -/
abbrev Byte := BitVec 8

/-- A symbol index: SEXTET_W = 6 bits (R6). -/
abbrev Sextet := BitVec 6

/-- A register or command word: REG_W = 32 bits (R6). -/
abbrev Word := BitVec 32

/-- Four bytes in lane order: an encoder's output group or a decoder's input block (20_memory.md R36). -/
structure Quad where
  c0 : Byte
  c1 : Byte
  c2 : Byte
  c3 : Byte
  deriving DecidableEq, Repr

end Sys2Proof
end

