-- ==== Sys2Proof/Syntax.lean ====
section
/-! DEFINITION. The commands of B64CORE: one constructor per row of the opcode map (30_encoding.md R52). -/

namespace Sys2Proof

/-- The ten legal commands (R52). None has an operand field: operands come from the registers R54 names. -/
inductive Instr where
  /-- CLR: clear the status (43_control.md R87). -/
  | clr
  /-- ENC3: encode one full group (41_encoder.md R68). -/
  | enc3
  /-- ENC2: encode a 2-byte remainder (41_encoder.md R69). -/
  | enc2
  /-- ENC1: encode a 1-byte remainder (41_encoder.md R70). -/
  | enc1
  /-- DECG: decode one block (42_decoder.md R82). -/
  | decg
  /-- ALUT: alphabet lookup (40_tables.md R58). -/
  | alut
  /-- RLUT: reverse lookup (40_tables.md R59). -/
  | rlut
  /-- ENCODE: encode a buffer in MEM (41_encoder.md R71). -/
  | encode
  /-- DECODE: decode a string in MEM (42_decoder.md R84). -/
  | decode
  /-- CHECK: the validation pre-pass alone (42_decoder.md R83). -/
  | check
  deriving DecidableEq, Repr

end Sys2Proof
end

