-- ==== Sys2Proof/Decode.lean ====
section
/-! DEFINITION. Decoding a command word, total and rejecting by name, and the encoder beside it (30_encoding.md R50 to R53). -/

namespace Sys2Proof

/-- Why a word is no command (R53). -/
inductive DecodeError where
  /-- RSV, bits 31:8, is not 0. -/
  | reservedBitsSet
  /-- OPC is 0x07 or in 0x0B..0xFF. -/
  | opcodeUnassigned
  deriving DecidableEq, Repr

/-- The field OPC, bits 7:0 (R50). -/
def opcField (w : Word) : BitVec 8 := w.extractLsb 7 0

/-- The field RSV, bits 31:8 (R50). -/
def rsvField (w : Word) : BitVec 24 := w.extractLsb 31 8

/-- The opcode map of R52, by OPC. -/
def commandOfOpc (opc : Nat) : Except DecodeError Instr :=
  match opc with
  | 0x00 => .ok .clr
  | 0x01 => .ok .enc3
  | 0x02 => .ok .enc2
  | 0x03 => .ok .enc1
  | 0x04 => .ok .decg
  | 0x05 => .ok .alut
  | 0x06 => .ok .rlut
  | 0x08 => .ok .encode
  | 0x09 => .ok .decode
  | 0x0A => .ok .check
  | _ => .error .opcodeUnassigned

/-- The command a word encodes; it depends on the word alone (R51), and RSV must be 0 (R53). -/
def decode (w : Word) : Except DecodeError Instr :=
  if rsvField w = 0#24 then commandOfOpc (opcField w).toNat else .error .reservedBitsSet

/-- The word of each command, column "w" of R52. -/
def encode (i : Instr) : Word :=
  match i with
  | .clr => 0x00000000#32
  | .enc3 => 0x00000001#32
  | .enc2 => 0x00000002#32
  | .enc1 => 0x00000003#32
  | .decg => 0x00000004#32
  | .alut => 0x00000005#32
  | .rlut => 0x00000006#32
  | .encode => 0x00000008#32
  | .decode => 0x00000009#32
  | .check => 0x0000000A#32

/-- The command word with the bits of `w` below `nbits` and 0 above them; a command is exactly one 32-bit word (R50). -/
def tableWord (nbits w : Nat) : Word := BitVec.ofNat 32 (w % 2 ^ nbits)

/-- The instruction the decoder reads from a word of the opcode table's bit numbering (bit 0 least significant, R7).
A word of more than 32 bits is no command (R50). -/
def decodeTableWord (nbits w : Nat) : Option Instr :=
  if nbits ≤ 32 then (decode (tableWord nbits w)).toOption else none

end Sys2Proof
end

