-- ==== Sys2Proof/Bus.lean ====
section
/-! DEFINITION. The host's side of the block's port: bus transactions and the reset input (30_encoding.md R55), the
register names (10_state.md R16 to R23), and the values a host's reads return (43_control.md R94). -/

namespace Sys2Proof

/-- The two disjoint address spaces (20_memory.md R31). -/
inductive Space where
  | reg
  | mem
  deriving DecidableEq, Repr

/-- The direction of a transaction of the given width, with its data where it has one. -/
inductive Transfer (width : Nat) where
  | read
  | write (data : BitVec width)
  deriving DecidableEq, Repr

/-- One bus transaction, the tuple `(space, address, width, direction, data)` of R55. -/
structure Transaction where
  space : Space
  address : Nat
  width : Nat
  transfer : Transfer width
  deriving DecidableEq, Repr

/-- A host action (R55): one bus transaction, or the reset input asserted then released. -/
inductive HostAction where
  | bus (t : Transaction)
  | reset
  deriving DecidableEq, Repr

/-- The eight register names of R10, R32 and R56. -/
inductive Reg where
  | cmd
  | status
  | din
  | dout
  | src
  | len
  | dst
  | olen
  deriving DecidableEq, Repr

/-- A value returned by an RD (32 bits, R91) or an MRD (8 bits, R92). -/
inductive Returned where
  | reg (v : Word)
  | mem (v : Byte)
  deriving DecidableEq, Repr

end Sys2Proof
end

