-- ==== Sys2Proof/Config.lean ====
section
/-! DEFINITION. What an instance fixes (MEM_SIZE, 00_scope.md R6) and the free values (the reset draw of MEM, 10_state.md R24). -/

namespace Sys2Proof

/-- The open parameter of R6, which "the model takes as an argument": State holds one, no step changes it. -/
structure Config where
  /-- MEM_SIZE, the bytes of buffer memory; 1 <= MEM_SIZE <= 2^32 (R6, D12). -/
  memSize : Nat
  deriving DecidableEq, Repr

/-- The byte of MEM at an address after the given reset draw, a free value (R24, R114): "each byte of MEM holds
a value the model draws freely from 0..255, and no rule may assume it". It has no body, so nothing can be proved of it
(log 3). -/
opaque Config.memDraw (draw : Nat) (address : Nat) : Byte

end Sys2Proof
end

