-- ==== Sys2Proof/Machine/State.lean ====
section
/-! DEFINITION. The state of B64CORE as plain data (10_state.md), the reasons a step can stop, and the state after reset. -/

namespace Sys2Proof.Machine

/-- The block's three error classes (60_exceptions.md R95). They are reports in STATUS, not stops: no class is fatal. -/
inductive ErrorClass where
  | formatError
  | invalidArgument
  | illegalCommand
  deriving DecidableEq, Repr

/-- Stops the machine itself makes. It makes none: an error of R95 is a next state with its code in STATUS, and R103 says
"The host's next action runs normally" (log 4). Raised by nobody. -/
inductive Fault : Type
  deriving DecidableEq, Repr

/-- Host actions the model refuses, one constructor for each line of 43_control.md R93, where the spec "does not say what
a real implementation does". All but the first are raised by the host actions (Machine/HostActions.lean) and all are safe:
nothing is claimed of a run that contains one (log 4). -/
inductive Refusal where
  /-- No meaning yet for the command; no arm of exec raises it. Safe. -/
  | notModelled (mnemonic : String)
  /-- R93 "a register access at a reserved offset". Safe. -/
  | reservedOffset
  /-- R93 "a register access of width other than 32 bits". Safe. -/
  | registerAccessWidth
  /-- R93 "a register access at an offset not a multiple of 4". Safe. -/
  | misalignedOffset
  /-- R93 "a write to STATUS, DOUT or OLEN". Safe. -/
  | writeToReadOnly (r : Reg)
  /-- R93 "a read of CMD". Safe. -/
  | readOfCmd
  /-- R93 "a MEM access of width other than 8 bits". Safe. -/
  | memAccessWidth
  /-- R93 "a MEM access at an address >= MEM_SIZE". Safe. -/
  | addressOutsideMem
  deriving DecidableEq, Repr

/-- The bytes of MEM written since the last reset, by address, addresses strictly rising. An unlisted address holds no
written byte: it reads as the reset draw (R24, log 3). -/
abbrev Memory := List Host.Cell

/-- The canonical form of Memory: addresses strictly rising. -/
def Memory.wf : Memory → Bool
  | [] => true
  | [_] => true
  | (a, _) :: (b, v) :: m => decide (a < b) && Memory.wf ((b, v) :: m)

/-- The state. CMD has no storage (R16) and the ROMs are constants (R12, R13), so neither is a field. -/
structure State where
  /-- The open parameter MEM_SIZE (R6). No step changes it. -/
  config : Config
  /-- STATUS (R17); its fields are read by the accessors of Machine/Flags.lean. -/
  status : Word
  /-- DIN (R18), the data input of the group commands. -/
  din : Word
  /-- DOUT (R19), the data output of the group commands. -/
  dout : Word
  /-- SRC (R20), the MEM address of a stream command's input. -/
  src : Word
  /-- LEN (R21), the length of a stream command's input. -/
  len : Word
  /-- DST (R22), the MEM address of a stream command's output. -/
  dst : Word
  /-- OLEN (R23), the output length of the last stream command that succeeded. -/
  olen : Word
  /-- MEM (R24): the bytes written since the last reset. -/
  mem : Memory
  /-- The model's own: the number of MEM's current reset draw (R114, log 3). -/
  draws : Nat
  /-- The host actions issued and not yet performed, oldest first (R55, R45, log 2). -/
  pending : List HostAction
  /-- The values returned by the RD and MRD actions so far, in order (R94). -/
  returned : List Returned
  deriving DecidableEq, Repr

/-- The block after reset (R30) in an instance with the given parameter, with MEM's given draw, and no host action yet. -/
def State.resetOf (c : Config) (draw : Nat) : State :=
  { config := c
    status := 0x00000000#32
    din := 0x00000000#32
    dout := 0x00000000#32
    src := 0x00000000#32
    len := 0x00000000#32
    dst := 0x00000000#32
    olen := 0x00000000#32
    mem := []
    draws := draw
    pending := []
    returned := [] }

/-- The machine right after reset (R30), of the instance with MEM_SIZE = 64: DESIGN CHOICE, R6 leaves MEM_SIZE open
(log 1); the draw number 0 is the model's own (log 3). -/
def State.reset : State := State.resetOf { memSize := 64 } 0

end Sys2Proof.Machine
end

