-- ==== Sys2Proof/Machine/Flags.lean ====
section
/-! DEFINITION. STATUS: its fields (10_state.md R17), and the values commands write to it (60_exceptions.md R95, R104). -/

namespace Sys2Proof.Machine

/-- FMT, bit 0: the last command raised FormatError (R17). -/
def statusFmt (w : Word) : Bool := w.getLsbD 0

/-- ARG, bit 1: the last command raised InvalidArgument (R17). -/
def statusArg (w : Word) : Bool := w.getLsbD 1

/-- OP, bit 2: the last command raised IllegalCommand (R17). -/
def statusOp (w : Word) : Bool := w.getLsbD 2

/-- CNT, bits 6:4: the valid lanes of DOUT after the last command (R17). -/
def statusCnt (w : Word) : Nat := (w.extractLsb 6 4).toNat

/-- The value a command that succeeds writes: the error bits 0 and CNT as its rule gives, `(cnt << 4)` (R104). -/
def statusOk (cnt : Nat) : Word := BitVec.ofNat 32 (cnt <<< 4)

/-- The STATUS value after an error, its code (R95). -/
def statusOfError (e : ErrorClass) : Word :=
  match e with
  | .formatError => 0x00000001#32
  | .invalidArgument => 0x00000002#32
  | .illegalCommand => 0x00000004#32

/-- The legal values of STATUS (R17): reserved bits 0, CNT at most 4, at most one error bit, and CNT = 0 beside one. -/
def statusLegal (w : Word) : Bool :=
  !w.getLsbD 3 && decide (w.extractLsb 31 7 = 0#25) && decide (statusCnt w ≤ 4) &&
    !(statusFmt w && statusArg w) && !(statusFmt w && statusOp w) && !(statusArg w && statusOp w) &&
    (!(statusFmt w || statusArg w || statusOp w) || decide (statusCnt w = 0))

end Sys2Proof.Machine
end

