-- ==== Sys2Proof/Machine/Ops.lean ====
section
/-! DEFINITION. The shared operations: bytes and ranges of MEM (20_memory.md R33, R34, R42, R43), how a command ends
(60_exceptions.md R103, R104), register reads (R91) and reset (70_reset_and_hazards.md R114). -/

namespace Sys2Proof.Machine

/-- The byte written last at an address, if one was written since the reset (R45). -/
def Memory.lookup : Memory → Nat → Option Byte
  | [], _ => none
  | (b, w) :: m, a => if b = a then some w else Memory.lookup m a

/-- Store a byte at an address, keeping the addresses strictly rising. -/
def Memory.write : Memory → Nat → Byte → Memory
  | [], a, v => [(a, v)]
  | (b, w) :: m, a, v =>
    if a < b then (a, v) :: (b, w) :: m
    else if a = b then (a, v) :: m
    else (b, w) :: Memory.write m a v

/-- Store a sequence at consecutive addresses, in ascending order (R34). -/
def Memory.writeList : Memory → Nat → List Byte → Memory
  | m, _, [] => m
  | m, a, v :: vs => Memory.writeList (Memory.write m a v) (a + 1) vs

/-- `MemRead(a, 1)` (R10): the last byte written there, else the reset draw (R45). -/
def State.readByte (s : State) (a : Nat) : Byte :=
  (s.mem.lookup a).getD (Config.memDraw s.draws a)

/-- `MemWrite(a, 1, v)` (R10). -/
def State.writeByte (s : State) (a : Nat) (v : Byte) : State :=
  { s with mem := s.mem.write a v }

/-- The range (a, n) of MEM, `[MemRead(a + k, 1) for k in 0 .. n-1]` (R34). -/
def State.readRange (s : State) (a n : Nat) : List Byte :=
  (List.range n).map (fun k => s.readByte (a + k))

/-- `for k: MemWrite(d + k, 1, T[k])` (R34). -/
def State.writeRange (s : State) (d : Nat) (t : List Byte) : State :=
  { s with mem := s.mem.writeList d t }

/-- The range (a, n) is inside MEM, on the exact sum (R42, R9). -/
def State.insideMem (s : State) (a n : Nat) : Bool := decide (a + n ≤ s.config.memSize)

/-- The ranges (a, n) and (d, m) overlap (R43). -/
def overlaps (a n d m : Nat) : Bool :=
  decide (0 < n) && decide (0 < m) && decide (a < d + m) && decide (d < a + n)

/-- `raise E()`, the block's whole error entry (R103): STATUS receives the class's code, and nothing else changes. There is
no return from it: no handler runs (R105). -/
def raise (e : ErrorClass) (s : State) : State :=
  { s with status := statusOfError e }

/-- How a group command ends when it succeeds: DOUT, then STATUS with CNT (R19, R104). -/
def succeedGroup (out : Word) (cnt : Nat) (s : State) : State :=
  { s with dout := out, status := statusOk cnt }

/-- How a stream command ends when it succeeds: OLEN, then STATUS = 0 (R23, R104). The length fits 32 bits (R44). -/
def succeedStream (n : Nat) (s : State) : State :=
  { s with olen := BitVec.ofNat 32 n, status := statusOk 0 }

/-- The value of a register the host may read (R91); none for CMD, which has no storage (R16). -/
def State.regValue (s : State) (r : Reg) : Option Word :=
  match r with
  | .cmd => none
  | .status => some s.status
  | .din => some s.din
  | .dout => some s.dout
  | .src => some s.src
  | .len => some s.len
  | .dst => some s.dst
  | .olen => some s.olen

/-- RESET (R114): every register 0, every byte of MEM a fresh draw. The parameter stays, and so do the host's own queue and
the values it has read (log 5). -/
def resetBlock (s : State) : State :=
  { State.resetOf s.config (s.draws + 1) with pending := s.pending, returned := s.returned }

end Sys2Proof.Machine
end

