-- ==== Sys2Proof/Machine/Control.lean ====
section
/-! DEFINITION. The control command (43_control.md R87). -/

namespace Sys2Proof.Machine

/-- CLR (R87): STATUS becomes 0 and nothing else changes. -/
def execClr (s : State) : Host.Outcome State Fault Refusal :=
  .next { s with status := statusOk 0 }

end Sys2Proof.Machine
end

