-- ==== Sys2Proof/Machine/Rom.lean ====
section
/-! DEFINITION. The two read-only tables and the padding character (10_state.md R12, R13, R15). They are constants: no
command or host action changes them, and they are valid from reset (70_reset_and_hazards.md R116). -/

namespace Sys2Proof.Machine

/-- PAD, the character `=` (R15). -/
def pad : Byte := 0x3D#8

/-- ALPHA[i], the character code of alphabet symbol i, in the closed form of R12. -/
def alpha (i : Sextet) : Byte :=
  let n := i.toNat
  if n ≤ 25 then BitVec.ofNat 8 (0x41 + n)
  else if n ≤ 51 then BitVec.ofNat 8 (0x61 + (n - 26))
  else if n ≤ 61 then BitVec.ofNat 8 (0x30 + (n - 52))
  else if n = 62 then 0x2B#8
  else 0x2F#8

/-- One entry of RLUT, the pair `(valid, idx)` (R13). -/
structure RlutEntry where
  valid : Bool
  idx : Sextet
  deriving DecidableEq, Repr

/-- RLUT[c], by the ranges of R13; every other code has the entry (0, 0). -/
def rlut (c : Byte) : RlutEntry :=
  let n := c.toNat
  if n = 0x2B then ⟨true, 62#6⟩
  else if n = 0x2F then ⟨true, 63#6⟩
  else if 0x30 ≤ n ∧ n ≤ 0x39 then ⟨true, BitVec.ofNat 6 (n - 0x30 + 52)⟩
  else if 0x41 ≤ n ∧ n ≤ 0x5A then ⟨true, BitVec.ofNat 6 (n - 0x41)⟩
  else if 0x61 ≤ n ∧ n ≤ 0x7A then ⟨true, BitVec.ofNat 6 (n - 0x61 + 26)⟩
  else ⟨false, 0#6⟩

/-- A character code is an alphabet character iff its RLUT entry is valid (42_decoder.md R72). -/
def isAlpha (c : Byte) : Bool := (rlut c).valid

end Sys2Proof.Machine
end

