-- ==== Sys2Proof/Machine/Codec.lean ====
section
/-! DEFINITION. The codec's functions on bytes, characters and sequences of them (41_encoder.md R60 to R64, 42_decoder.md
R73 to R81). -/

namespace Sys2Proof.Machine

/-- The four sextets of a group, in order. -/
structure Sextets where
  s0 : Sextet
  s1 : Sextet
  s2 : Sextet
  s3 : Sextet
  deriving DecidableEq, Repr

/-- The bit-slice function `slice3` (R60). The formulas run on 8 bits, where no result is truncated (R61). -/
def slice3 (b0 b1 b2 : Byte) : Sextets :=
  { s0 := (b0 >>> 2).setWidth 6
    s1 := (((b0 &&& 0b11#8) <<< 4) ||| (b1 >>> 4)).setWidth 6
    s2 := (((b1 &&& 0b1111#8) <<< 2) ||| (b2 >>> 6)).setWidth 6
    s3 := (b2 &&& 0b111111#8).setWidth 6 }

/-- The characters of a full group (R63). -/
def encg3 (b0 b1 b2 : Byte) : Quad :=
  let s := slice3 b0 b1 b2
  ⟨alpha s.s0, alpha s.s1, alpha s.s2, alpha s.s3⟩

/-- The characters of a 2-byte remainder: missing bits zero-filled (R62), the last position PAD (R63). -/
def encg2 (b0 b1 : Byte) : Quad :=
  let s := slice3 b0 b1 0x00#8
  ⟨alpha s.s0, alpha s.s1, alpha s.s2, pad⟩

/-- The characters of a 1-byte remainder: missing bits zero-filled (R62), the last two positions PAD (R63). -/
def encg1 (b0 : Byte) : Quad :=
  let s := slice3 b0 0x00#8 0x00#8
  ⟨alpha s.s0, alpha s.s1, pad, pad⟩

/-- Four characters as a sequence, in string order (20_memory.md R34). -/
def quadChars (q : Quad) : List Byte := [q.c0, q.c1, q.c2, q.c3]

/-- The buffer function `enc` (R64): full groups in ascending order, then the remainder. -/
def enc : List Byte → List Byte
  | b0 :: b1 :: b2 :: rest => quadChars (encg3 b0 b1 b2) ++ enc rest
  | [b0, b1] => quadChars (encg2 b0 b1)
  | [b0] => quadChars (encg1 b0)
  | [] => []

/-- The output length ENCODE computes from its input length (R71, the length law R65). -/
def encLength (n : Nat) : Nat := (n + 2) / 3 * 4

/-- The final-group shapes `XXXX`, `XXX=` and `XX==` (R73). -/
def vgroup (q : Quad) : Bool :=
  isAlpha q.c0 && isAlpha q.c1 &&
    ((isAlpha q.c2 && isAlpha q.c3) || (isAlpha q.c2 && q.c3 == pad) || (q.c2 == pad && q.c3 == pad))

/-- The last block of a string, where there is one, has a final-group shape (the third line of R73's `valid`). -/
def finalGroupOk : List Byte → Bool
  | [] => true
  | [c0, c1, c2, c3] => vgroup ⟨c0, c1, c2, c3⟩
  | _ => false

/-- The validity grammar as R73's exact predicate: the length is a multiple of 4, every character before the last block
is an alphabet character, and the last block has a final-group shape. -/
def valid (t : List Byte) : Bool :=
  t.length % 4 == 0 && (t.take (t.length - 4)).all isAlpha && finalGroupOk (t.drop (t.length - 4))

/-- The number of trailing PAD characters of a valid string (R75). -/
def pads (t : List Byte) : Nat :=
  match t.reverse with
  | last :: before :: _ => if last ≠ pad then 0 else if before ≠ pad then 1 else 2
  | _ => 0

/-- The output length `olen(T)` of a valid string (R76). -/
def decLength (t : List Byte) : Nat := t.length / 4 * 3 - pads t

/-- The three bytes of a block, in order. -/
structure Triple where
  o0 : Byte
  o1 : Byte
  o2 : Byte
  deriving DecidableEq, Repr

/-- The reconstructor `rec` (R77). The formulas run on 8 bits, where no result is truncated (R78). -/
def reconstruct (i0 i1 i2 i3 : Sextet) : Triple :=
  let j0 : Byte := i0.setWidth 8
  let j1 : Byte := i1.setWidth 8
  let j2 : Byte := i2.setWidth 8
  let j3 : Byte := i3.setWidth 8
  { o0 := (j0 <<< 2) ||| (j1 >>> 4)
    o1 := ((j1 &&& 0b1111#8) <<< 4) ||| (j2 >>> 2)
    o2 := ((j2 &&& 0b11#8) <<< 6) ||| (j3 &&& 0b111111#8) }

/-- The index of one position: 0 for PAD, which is never looked up, else the RLUT index (R79). -/
def charIndex (c : Byte) : Sextet := if c = pad then 0#6 else (rlut c).idx

/-- The write count of a block (R80). -/
def blockCount (q : Quad) : Nat :=
  if q.c3 ≠ pad then 3 else if q.c2 ≠ pad then 2 else 1

/-- The reconstructor applied to the four positions of a block (R81). -/
def blockTriple (q : Quad) : Triple :=
  reconstruct (charIndex q.c0) (charIndex q.c1) (charIndex q.c2) (charIndex q.c3)

/-- The bytes a block writes: the first k of its three (R80, R81). -/
def blockBytes (q : Quad) : List Byte :=
  let o := blockTriple q
  [o.o0, o.o1, o.o2].take (blockCount q)

/-- The buffer function `dec`, defined by the spec for valid strings only (R81): one pass over the blocks of four. -/
def dec : List Byte → List Byte
  | c0 :: c1 :: c2 :: c3 :: rest => blockBytes ⟨c0, c1, c2, c3⟩ ++ dec rest
  | _ => []

end Sys2Proof.Machine
end

