-- ==== Sys2Proof/Machine/Operands.lean ====
section
/-! DEFINITION. Operand assembly: the lanes of DIN and DOUT (20_memory.md R36, 30_encoding.md R54), the ranges of the
stream commands (R42), and the register space map (R32). -/

namespace Sys2Proof.Machine

/-- Lane k of a word: bits 8k+7:8k (R36). -/
def lane (k : Nat) (w : Word) : Byte := w.extractLsb' (8 * k) 8

/-- The four lanes of a word, lane 0 first (R36). -/
def lanesOf (w : Word) : Quad := ⟨lane 0 w, lane 1 w, lane 2 w, lane 3 w⟩

/-- The word `{c3, c2, c1, c0}`: element k in lane k (R36). -/
def packLanes (q : Quad) : Word :=
  q.c0.setWidth 32 ||| (q.c1.setWidth 32 <<< 8) ||| (q.c2.setWidth 32 <<< 16) ||| (q.c3.setWidth 32 <<< 24)

/-- ALUT's operand, DIN[5:0] (R54). -/
def sextetOf (w : Word) : Sextet := w.extractLsb 5 0

/-- The start of a stream command's input range, x[SRC], as an exact natural (R9, R42). -/
def State.srcAddr (s : State) : Nat := s.src.toNat

/-- The length of a stream command's input range, x[LEN] (R42). -/
def State.inLen (s : State) : Nat := s.len.toNat

/-- The start of a stream command's output range, x[DST] (R42). -/
def State.dstAddr (s : State) : Nat := s.dst.toNat

/-- The offset of each register in the register space (R32). -/
def regOffset (r : Reg) : Nat :=
  match r with
  | .cmd => 0x00
  | .status => 0x04
  | .din => 0x08
  | .dout => 0x0C
  | .src => 0x10
  | .len => 0x14
  | .dst => 0x18
  | .olen => 0x1C

/-- The register at an offset; every other offset is reserved (R32). -/
def regAt (offset : Nat) : Option Reg :=
  match offset with
  | 0x00 => some .cmd
  | 0x04 => some .status
  | 0x08 => some .din
  | 0x0C => some .dout
  | 0x10 => some .src
  | 0x14 => some .len
  | 0x18 => some .dst
  | 0x1C => some .olen
  | _ => none

end Sys2Proof.Machine
end

