-- ==== Sys2Proof/Machine/Decoder.lean ====
section
/-! DEFINITION. The decoder commands (42_decoder.md R82 to R84). -/

namespace Sys2Proof.Machine

/-- DECG's result word: the k written bytes in lanes 0 to k-1, the lanes at or above k 0 (R82). -/
def blockWord (q : Quad) : Word :=
  let o := blockTriple q
  let k := blockCount q
  o.o0.setWidth 32 ||| (if 2 ≤ k then o.o1.setWidth 32 <<< 8 else 0#32) |||
    (if k = 3 then o.o2.setWidth 32 <<< 16 else 0#32)

/-- DECG (R82): decode the block in DIN, or FormatError if it has none of the final-group shapes. -/
def execDecg (s : State) : Host.Outcome State Fault Refusal :=
  let q := lanesOf s.din
  if vgroup q then .next (succeedGroup (blockWord q) (blockCount q) s)
  else .next (raise .formatError s)

/-- CHECK (R83): the validation pre-pass alone; OLEN receives the length DECODE would write. -/
def execCheck (s : State) : Host.Outcome State Fault Refusal :=
  let n := s.inLen
  if !s.insideMem s.srcAddr n then .next (raise .invalidArgument s)
  else
    let t := s.readRange s.srcAddr n
    if !valid t then .next (raise .formatError s)
    else .next (succeedStream (decLength t) s)

/-- DECODE (R84): the checks in its order, then the whole output, then OLEN and STATUS. -/
def execDecode (s : State) : Host.Outcome State Fault Refusal :=
  let n := s.inLen
  if !s.insideMem s.srcAddr n then .next (raise .invalidArgument s)
  else
    let t := s.readRange s.srcAddr n
    let m := decLength t
    if !valid t then .next (raise .formatError s)
    else if !s.insideMem s.dstAddr m then .next (raise .invalidArgument s)
    else if overlaps s.srcAddr n s.dstAddr m then .next (raise .invalidArgument s)
    else .next (succeedStream m (s.writeRange s.dstAddr (dec t)))

end Sys2Proof.Machine
end

