-- ==== Sys2Proof/Machine/Encoder.lean ====
section
/-! DEFINITION. The encoder commands (41_encoder.md R68 to R71). -/

namespace Sys2Proof.Machine

/-- ENC3 (R68): encode DIN lanes 0, 1 and 2. -/
def execEnc3 (s : State) : Host.Outcome State Fault Refusal :=
  .next (succeedGroup (packLanes (encg3 (lane 0 s.din) (lane 1 s.din) (lane 2 s.din))) 4 s)

/-- ENC2 (R69): encode the 2-byte remainder in DIN lanes 0 and 1. -/
def execEnc2 (s : State) : Host.Outcome State Fault Refusal :=
  .next (succeedGroup (packLanes (encg2 (lane 0 s.din) (lane 1 s.din))) 4 s)

/-- ENC1 (R70): encode the 1-byte remainder in DIN lane 0. -/
def execEnc1 (s : State) : Host.Outcome State Fault Refusal :=
  .next (succeedGroup (packLanes (encg1 (lane 0 s.din))) 4 s)

/-- ENCODE (R71): the checks in its order, then the whole output, then OLEN and STATUS. -/
def execEncode (s : State) : Host.Outcome State Fault Refusal :=
  let n := s.inLen
  let m := encLength n
  if !s.insideMem s.srcAddr n then .next (raise .invalidArgument s)
  else if !s.insideMem s.dstAddr m then .next (raise .invalidArgument s)
  else if overlaps s.srcAddr n s.dstAddr m then .next (raise .invalidArgument s)
  else .next (succeedStream m (s.writeRange s.dstAddr (enc (s.readRange s.srcAddr n))))

end Sys2Proof.Machine
end

