-- ==== Sys2Proof/Machine/Tables.lean ====
section
/-! DEFINITION. The table commands (40_tables.md R58, R59). -/

namespace Sys2Proof.Machine

/-- ALUT (R58): the character of sextet DIN[5:0]. -/
def execAlut (s : State) : Host.Outcome State Fault Refusal :=
  .next (succeedGroup ((alpha (sextetOf s.din)).setWidth 32) 1 s)

/-- RLUT (R59): the index of the character in DIN lane 0, or FormatError if it is no alphabet character. -/
def execRlut (s : State) : Host.Outcome State Fault Refusal :=
  let entry := rlut (lane 0 s.din)
  if entry.valid then .next (succeedGroup (entry.idx.setWidth 32) 1 s)
  else .next (raise .formatError s)

end Sys2Proof.Machine
end

