-- ==== Sys2Proof/Machine/Dispatch.lean ====
section
/-! DEFINITION. One arm per command of the opcode map (30_encoding.md R52). -/

namespace Sys2Proof.Machine

def exec (i : Instr) (s : State) : Host.Outcome State Fault Refusal :=
  match i with
  | .clr => Sys2Proof.Machine.execClr s
  | .enc3 => Sys2Proof.Machine.execEnc3 s
  | .enc2 => Sys2Proof.Machine.execEnc2 s
  | .enc1 => Sys2Proof.Machine.execEnc1 s
  | .decg => Sys2Proof.Machine.execDecg s
  | .alut => Sys2Proof.Machine.execAlut s
  | .rlut => Sys2Proof.Machine.execRlut s
  | .encode => Sys2Proof.Machine.execEncode s
  | .decode => Sys2Proof.Machine.execDecode s
  | .check => Sys2Proof.Machine.execCheck s

end Sys2Proof.Machine
end

