-- ==== Sys2Proof/Machine/HostActions.lean ====
section
/-! DEFINITION. What each host action does (43_control.md R90 to R93, 70_reset_and_hazards.md R114). -/

namespace Sys2Proof.Machine

/-- A host write of a word to CMD (R16, R90): the legality check before anything else (R98), then the command. -/
def command (w : Word) (s : State) : Host.Outcome State Fault Refusal :=
  match decode w with
  | .ok i => exec i s
  | .error _ => .next (raise .illegalCommand s)

/-- A 32-bit host write at the offset of a register (R90). -/
def writeReg (r : Reg) (v : Word) (s : State) : Host.Outcome State Fault Refusal :=
  match r with
  | .cmd => command v s
  | .din => .next { s with din := v }
  | .src => .next { s with src := v }
  | .len => .next { s with len := v }
  | .dst => .next { s with dst := v }
  | .status => .refused (.writeToReadOnly .status)
  | .dout => .refused (.writeToReadOnly .dout)
  | .olen => .refused (.writeToReadOnly .olen)

/-- A 32-bit host read at the offset of a register (R91): the value joins the run's returned values (R94). -/
def readReg (r : Reg) (s : State) : Host.Outcome State Fault Refusal :=
  match s.regValue r with
  | some v => .next { s with returned := s.returned ++ [.reg v] }
  | none => .refused .readOfCmd

/-- A register-space transaction (R31, R38, R93). -/
def regAccess (t : Transaction) (s : State) : Host.Outcome State Fault Refusal :=
  if t.width ≠ 32 then .refused .registerAccessWidth
  else if t.address % 4 ≠ 0 then .refused .misalignedOffset
  else
    match regAt t.address with
    | none => .refused .reservedOffset
    | some r =>
      match t.transfer with
      | .read => readReg r s
      | .write v => writeReg r (v.setWidth 32) s

/-- A MEM transaction, MWR or MRD (R92, R93). -/
def memAccess (t : Transaction) (s : State) : Host.Outcome State Fault Refusal :=
  if t.width ≠ 8 then .refused .memAccessWidth
  else if s.config.memSize ≤ t.address then .refused .addressOutsideMem
  else
    match t.transfer with
    | .read => .next { s with returned := s.returned ++ [.mem (s.readByte t.address)] }
    | .write v => .next (s.writeByte t.address (v.setWidth 8))

/-- One host action (R55). -/
def perform (a : HostAction) (s : State) : Host.Outcome State Fault Refusal :=
  match a with
  | .reset => .next (resetBlock s)
  | .bus t =>
    match t.space with
    | .reg => regAccess t s
    | .mem => memAccess t s

/-- `WR r, v` (R55). -/
def actionWr (r : Reg) (v : Word) : HostAction := .bus ⟨.reg, regOffset r, 32, .write v⟩

/-- `RD r` (R55). -/
def actionRd (r : Reg) : HostAction := .bus ⟨.reg, regOffset r, 32, .read⟩

/-- `MWR a, v` (R55). -/
def actionMwr (a : Nat) (v : Byte) : HostAction := .bus ⟨.mem, a, 8, .write v⟩

/-- `MRD a` (R55). -/
def actionMrd (a : Nat) : HostAction := .bus ⟨.mem, a, 8, .read⟩

/-- `CMD v`, any 32-bit word, legal or not (R55). -/
def actionCmd (v : Word) : HostAction := actionWr .cmd v

end Sys2Proof.Machine
end

