-- ==== Sys2Proof/Machine/Step.lean ====
section
/-! DEFINITION. One step: the oldest pending host action (20_memory.md R45). -/

namespace Sys2Proof.Machine

/-- One event of the total order of R45: the oldest host action, performed whole. With none pending the block is idle and
retains all state (60_exceptions.md R113). -/
def step (s : State) : Host.Outcome State Fault Refusal :=
  match s.pending with
  | [] => .next s
  | a :: rest => perform a { s with pending := rest }

/-- The host issues a program: its actions follow those already pending, in order (30_encoding.md R55). -/
def State.issue (s : State) (actions : List HostAction) : State :=
  { s with pending := s.pending ++ actions }

/-- The state whose next step performs a host write of the given word to CMD, ahead of what is pending. The block has no
program counter and no fetch (10_state.md R26): a command is supplied by a CMD write, so that write is where it comes from
(log 2). -/
def State.withFetchWord (s : State) (nbits w : Nat) : State :=
  { s with pending := actionCmd (tableWord nbits w) :: s.pending }

end Sys2Proof.Machine
end

