-- ==== Sys2Proof/Machine/Program.lean ====
section
/-! DEFINITION. Host programs: the assembly syntax (30_encoding.md R56), the pseudo-actions with their expansions (R57), and
the host actions a program stands for (R55). What R56 leaves open is chosen in log 6. -/

namespace Sys2Proof.Machine

/-- The count of `ENC n`, n = 1, 2, 3 (R57). -/
inductive EncCount where
  | one
  | two
  | three
  deriving DecidableEq, Repr

/-- The pseudo-actions (R57). R57 gives their operands no width; DESIGN CHOICE (log 6): the characters of DIN4 and the values
of MWRB are bytes, and every address and length is a word. -/
inductive Pseudo where
  | enc (n : EncCount)
  | din4 (c0 c1 c2 c3 : Byte)
  | mwrb (a : Word) (v0 : Byte) (vs : List Byte)
  | mwrs (a : Word) (t : List Byte)
  | encode (a n d : Word)
  | decode (a n d : Word)
  | check (a n : Word)
  deriving DecidableEq, Repr

/-- An action of the syntax (R56). -/
inductive SourceAction where
  | wr (r : Reg) (v : Word)
  | rd (r : Reg)
  | mwr (a : Word) (v : Byte)
  | mrd (a : Word)
  | reset
  | cmd (v : Word)
  | mnemonic (i : Instr)
  | pseudo (p : Pseudo)
  deriving DecidableEq, Repr

/-- A line: an optional label, for the reader only, and an optional action (R56). -/
structure SourceLine where
  label : Option (List Char)
  action : Option SourceAction
  deriving DecidableEq, Repr

/-- `MWR a+j, v_j` for each value, in order; the address sum is exact (R57, R9). -/
def mwrSequence (a : Nat) : List Byte → List HostAction
  | [] => []
  | v :: vs => actionMwr a v :: mwrSequence (a + 1) vs

/-- The writes of SRC and LEN that begin a stream pseudo-action (R57). -/
def wrInput (a n : Word) : List HostAction := [actionWr .src a, actionWr .len n]

/-- The exact expansion of each pseudo-action (R57). -/
def expandPseudo (p : Pseudo) : List HostAction :=
  match p with
  | .enc .one => [actionCmd (encode .enc1)]
  | .enc .two => [actionCmd (encode .enc2)]
  | .enc .three => [actionCmd (encode .enc3)]
  | .din4 c0 c1 c2 c3 =>
    [actionWr .din
      ((c3.setWidth 32 <<< 24) ||| (c2.setWidth 32 <<< 16) ||| (c1.setWidth 32 <<< 8) ||| c0.setWidth 32)]
  | .mwrb a v0 vs => mwrSequence a.toNat (v0 :: vs)
  | .mwrs a t => mwrSequence a.toNat t
  | .encode a n d => wrInput a n ++ [actionWr .dst d, actionCmd (encode .encode)]
  | .decode a n d => wrInput a n ++ [actionWr .dst d, actionCmd (encode .decode)]
  | .check a n => wrInput a n ++ [actionCmd (encode .check)]

/-- The host actions of one source action (R55). -/
def hostActions (a : SourceAction) : List HostAction :=
  match a with
  | .wr r v => [actionWr r v]
  | .rd r => [actionRd r]
  | .mwr a v => [actionMwr a.toNat v]
  | .mrd a => [actionMrd a.toNat]
  | .reset => [.reset]
  | .cmd v => [actionCmd v]
  | .mnemonic i => [actionCmd (encode i)]
  | .pseudo p => expandPseudo p

/-- The host actions of a program, in the order of its lines (R56). -/
def assemble (lines : List SourceLine) : List HostAction :=
  lines.flatMap (fun l => (l.action.map hostActions).getD [])

/-- The tokens of a line. A character literal is the number of its code (R56). -/
inductive Token where
  | word (w : List Char)
  | num (n : Nat)
  | str (t : List Byte)
  | comma
  | colon
  deriving DecidableEq, Repr

/-- What the reader of a line is inside of; partial texts are held last character first. -/
inductive LexMode where
  | idle
  | word (acc : List Char)
  | charStart
  | charEnd (c : Char)
  | str (acc : List Char)
  | comment
  deriving DecidableEq, Repr

/-- A line read so far: what the reader is inside of, and the tokens before it, last first. -/
structure LexState where
  mode : LexMode
  tokens : List Token
  deriving DecidableEq, Repr

/-- A printable character: codes 0x20 to 0x7E (DESIGN CHOICE, log 6). -/
def printableChar (c : Char) : Bool := decide (0x20 ≤ c.toNat) && decide (c.toNat ≤ 0x7E)

/-- White space between tokens: space and tab (DESIGN CHOICE, log 6). -/
def blankChar (c : Char) : Bool := c == ' ' || c == '\t'

/-- A decimal digit. -/
def digitChar (c : Char) : Bool := decide ('0'.toNat ≤ c.toNat) && decide (c.toNat ≤ '9'.toNat)

/-- A character of a name or a number: a letter, a digit or an underscore (DESIGN CHOICE, log 6). -/
def wordChar (c : Char) : Bool :=
  digitChar c || c == '_' ||
    (decide ('A'.toNat ≤ c.toNat) && decide (c.toNat ≤ 'Z'.toNat)) ||
    (decide ('a'.toNat ≤ c.toNat) && decide (c.toNat ≤ 'z'.toNat))

/-- The value of a hexadecimal digit, in either case (DESIGN CHOICE, log 6). -/
def hexDigit (c : Char) : Option Nat :=
  if digitChar c then some (c.toNat - '0'.toNat)
  else if 'A'.toNat ≤ c.toNat ∧ c.toNat ≤ 'F'.toNat then some (c.toNat - 'A'.toNat + 10)
  else if 'a'.toNat ≤ c.toNat ∧ c.toNat ≤ 'f'.toNat then some (c.toNat - 'a'.toNat + 10)
  else none

/-- The number that digits of a base write, most significant first. -/
def numberOf (base : Nat) (digits : List Char) : Option Nat :=
  digits.foldlM (fun n c => do
    let d ← hexDigit c
    if d < base then some (n * base + d) else none) 0

/-- A completed run of word characters: a number if it begins with a digit, `0x` for hexadecimal (R56), else a name. -/
def wordToken (w : List Char) : Option Token :=
  match w with
  | [] => none
  | '0' :: 'x' :: d :: ds => (numberOf 16 (d :: ds)).map .num
  | c :: cs => if digitChar c then (numberOf 10 (c :: cs)).map .num else some (.word (c :: cs))

/-- End the word being read, if any. -/
def flushWord (s : LexState) : Option LexState :=
  match s.mode with
  | .word acc => (wordToken acc.reverse).map (fun t => ⟨.idle, t :: s.tokens⟩)
  | _ => some s

/-- Read a character that stands outside words, literals and comments. -/
def lexIdle (s : LexState) (c : Char) : Option LexState :=
  if blankChar c then some ⟨.idle, s.tokens⟩
  else if c = ',' then some ⟨.idle, .comma :: s.tokens⟩
  else if c = ':' then some ⟨.idle, .colon :: s.tokens⟩
  else if c = ';' then some ⟨.comment, s.tokens⟩
  else if c = '\'' then some ⟨.charStart, s.tokens⟩
  else if c = '"' then some ⟨.str [], s.tokens⟩
  else if wordChar c then some ⟨.word [c], s.tokens⟩
  else none

/-- Read one character of a line. -/
def lexChar (s : LexState) (c : Char) : Option LexState :=
  match s.mode with
  | .comment => some s
  | .charStart => if printableChar c then some ⟨.charEnd c, s.tokens⟩ else none
  | .charEnd d => if c = '\'' then some ⟨.idle, .num d.toNat :: s.tokens⟩ else none
  | .str acc =>
    if c = '"' then some ⟨.idle, .str (acc.reverse.map (fun d => BitVec.ofNat 8 d.toNat)) :: s.tokens⟩
    else if printableChar c then some ⟨.str (c :: acc), s.tokens⟩
    else none
  | .word acc =>
    if wordChar c then some ⟨.word (c :: acc), s.tokens⟩
    else (flushWord s).bind (fun t => lexIdle t c)
  | .idle => lexIdle s c

/-- The tokens of a line; none if a literal is left open or a character fits no token. -/
def lexLine (line : List Char) : Option (List Token) :=
  ((line.foldlM lexChar ⟨.idle, []⟩).bind flushWord).bind (fun s =>
    match s.mode with
    | .idle => some s.tokens.reverse
    | .comment => some s.tokens.reverse
    | _ => none)

/-- The first words of actions (R56, R57). -/
inductive Keyword where
  | wr
  | rd
  | mwr
  | mrd
  | reset
  | cmd
  | mnemonic (i : Instr)
  | enc
  | din4
  | mwrb
  | mwrs
  deriving DecidableEq, Repr

/-- The registers by name, case-sensitive upper case (R56). -/
def regNames : List (String × Reg) :=
  [("CMD", .cmd), ("STATUS", .status), ("DIN", .din), ("DOUT", .dout), ("SRC", .src), ("LEN", .len), ("DST", .dst),
   ("OLEN", .olen)]

/-- The first words of actions by name, case-sensitive upper case (R56, R57). -/
def keywordNames : List (String × Keyword) :=
  [("WR", .wr), ("RD", .rd), ("MWR", .mwr), ("MRD", .mrd), ("RESET", .reset), ("CMD", .cmd), ("ENC", .enc),
   ("DIN4", .din4), ("MWRB", .mwrb), ("MWRS", .mwrs), ("CLR", .mnemonic .clr), ("ENC3", .mnemonic .enc3),
   ("ENC2", .mnemonic .enc2), ("ENC1", .mnemonic .enc1), ("DECG", .mnemonic .decg), ("ALUT", .mnemonic .alut),
   ("RLUT", .mnemonic .rlut), ("ENCODE", .mnemonic .encode), ("DECODE", .mnemonic .decode), ("CHECK", .mnemonic .check)]

/-- The entry of a table of names. -/
def byName {α : Type} (table : List (String × α)) (w : List Char) : Option α :=
  (table.find? (fun e => e.1.toList == w)).map Prod.snd

/-- `num32` (R56). -/
def num32 (n : Nat) : Option Word := if n < 2 ^ 32 then some (BitVec.ofNat 32 n) else none

/-- `num8` (R56). -/
def num8 (n : Nat) : Option Byte := if n < 2 ^ 8 then some (BitVec.ofNat 8 n) else none

/-- The values of `MWRB` after the first, each after a comma (R57) and each a `num8` (DESIGN CHOICE, log 6). -/
def moreBytes : List Token → Option (List Byte)
  | [] => some []
  | .comma :: .num v :: rest => do
    let b ← num8 v
    let bs ← moreBytes rest
    some (b :: bs)
  | _ => none

/-- An action from its first word and the tokens after it (R56, R57). The places R56 names are `num32` or `num8` as it says.
R57 gives the operands of pseudo-actions no width; DESIGN CHOICE (log 6): c0 to c3 of DIN4 and v0 to vk of MWRB are `num8`, so
a value above 255 there fits no syntax, and every address a or d and length n of a pseudo-action is `num32`. -/
def parseAction (k : Keyword) (args : List Token) : Option SourceAction :=
  match k, args with
  | .wr, [.word r, .comma, .num v] => do some (.wr (← byName regNames r) (← num32 v))
  | .rd, [.word r] => do some (.rd (← byName regNames r))
  | .mwr, [.num a, .comma, .num v] => do some (.mwr (← num32 a) (← num8 v))
  | .mrd, [.num a] => do some (.mrd (← num32 a))
  | .reset, [] => some .reset
  | .cmd, [.num v] => do some (.cmd (← num32 v))
  | .mnemonic i, [] => some (.mnemonic i)
  | .enc, [.num 1] => some (.pseudo (.enc .one))
  | .enc, [.num 2] => some (.pseudo (.enc .two))
  | .enc, [.num 3] => some (.pseudo (.enc .three))
  | .din4, [.num c0, .comma, .num c1, .comma, .num c2, .comma, .num c3] => do
    some (.pseudo (.din4 (← num8 c0) (← num8 c1) (← num8 c2) (← num8 c3)))
  | .mwrb, .num a :: .comma :: .num v0 :: rest => do
    some (.pseudo (.mwrb (← num32 a) (← num8 v0) (← moreBytes rest)))
  | .mwrs, [.num a, .comma, .str t] => do some (.pseudo (.mwrs (← num32 a) t))
  | .mnemonic .encode, [.num a, .comma, .num n, .comma, .num d] => do
    some (.pseudo (.encode (← num32 a) (← num32 n) (← num32 d)))
  | .mnemonic .decode, [.num a, .comma, .num n, .comma, .num d] => do
    some (.pseudo (.decode (← num32 a) (← num32 n) (← num32 d)))
  | .mnemonic .check, [.num a, .comma, .num n] => do
    some (.pseudo (.check (← num32 a) (← num32 n)))
  | _, _ => none

/-- The action of a line after its label: none written, or one that begins with a keyword (R56). -/
def parseBody (tokens : List Token) : Option (Option SourceAction) :=
  match tokens with
  | [] => some none
  | .word w :: args => do
    let k ← byName keywordNames w
    let a ← parseAction k args
    some (some a)
  | _ => none

/-- A line, `[ label ":" ] [ action ] [ ";" comment ]` (R56). -/
def parseLine (line : List Char) : Option SourceLine := do
  match ← lexLine line with
  | .word l :: .colon :: rest => some ⟨some l, ← parseBody rest⟩
  | tokens => some ⟨none, ← parseBody tokens⟩

/-- The lines of a text: each ends at a line end, the last one at the text's end too (DESIGN CHOICE, log 6). -/
def textLines : List Char → List (List Char)
  | [] => []
  | c :: cs =>
    if c = '\n' then [] :: textLines cs
    else
      match textLines cs with
      | [] => [[c]]
      | l :: ls => (c :: l) :: ls

/-- A program text, `{ line }` (R56); none if a line does not fit the syntax. -/
def parseProgram (text : List Char) : Option (List SourceLine) :=
  (textLines text).mapM parseLine

/-- The host actions a program text stands for. -/
def assembleText (text : String) : Option (List HostAction) :=
  (parseProgram text.toList).map assemble

end Sys2Proof.Machine
end

