-- ==== Sys2Proof/WellFormed.lean ====
section
/-! DEFINITION. Which terms are well formed: instructions, command words (30_encoding.md R53), the parameter MEM_SIZE
(00_scope.md R6), and the host accesses that have a meaning (43_control.md R93). -/

namespace Sys2Proof

/-- Every instruction is well formed: a command has no operand field (R50). -/
abbrev Instr.wf : Instr → Bool
  | .clr => true
  | .enc3 => true
  | .enc2 => true
  | .enc1 => true
  | .decg => true
  | .alut => true
  | .rlut => true
  | .encode => true
  | .decode => true
  | .check => true

/-- A command word is legal: not one of R53's "RSV != 0, or OPC is 0x07, or OPC is in 0x0B..0xFF". -/
abbrev legalWord (w : Word) : Bool :=
  !(decide (w.extractLsb 31 8 ≠ 0#24) || decide (w.extractLsb 7 0 = 0x07#8) || decide (0x0B#8 ≤ w.extractLsb 7 0))

/-- The parameter's range (R6): 1 <= MEM_SIZE <= 2^32. -/
abbrev Config.wf (c : Config) : Bool :=
  decide (1 ≤ c.memSize) && decide (c.memSize ≤ 2 ^ 32)

/-- The offsets of the read-only registers STATUS, DOUT and OLEN (R32), which R93 forbids to write. -/
abbrev readOnlyOffsets : List Nat := [0x04, 0x0C, 0x1C]

/-- A bus transaction has a meaning: none of the seven accesses R93 lists, for the given MEM_SIZE. -/
abbrev Transaction.defined (memSize : Nat) (t : Transaction) : Bool :=
  match t.space with
  | .reg =>
    decide (t.width = 32) && decide (t.address % 4 = 0) && decide (t.address ≤ 0x1C) &&
      (match t.transfer with
       | .read => decide (t.address ≠ 0x00)
       | .write _ => decide (t.address ∉ readOnlyOffsets))
  | .mem => decide (t.width = 8) && decide (t.address < memSize)

/-- A host action has a meaning (R93); RESET always has (R114). -/
abbrev HostAction.defined (memSize : Nat) : HostAction → Bool
  | .bus t => t.defined memSize
  | .reset => true

end Sys2Proof
end

