-- ==== Sys2Proof/Safety.lean ====
section
/-! DEFINITION. What claims are stated in terms of: the kinds of command (30_encoding.md R52), the invariant of the block's
state, clean runs (43_control.md R94), and the validity grammar as VB64's regular expression (42_decoder.md R73). -/

namespace Sys2Proof.Safety

open Sys2Proof.Machine

/-- The group commands (R52, column "kind"). -/
def isGroup : Instr → Bool
  | .enc3 => true
  | .enc2 => true
  | .enc1 => true
  | .decg => true
  | .alut => true
  | .rlut => true
  | .clr => false
  | .encode => false
  | .decode => false
  | .check => false

/-- The stream commands (R52, column "kind"). -/
def isStream : Instr → Bool
  | .encode => true
  | .decode => true
  | .check => true
  | .clr => false
  | .enc3 => false
  | .enc2 => false
  | .enc1 => false
  | .decg => false
  | .alut => false
  | .rlut => false

/-- STATUS reports an error: one of FMT, ARG and OP is 1 (R17). -/
def reportsError (w : Word) : Bool := statusFmt w || statusArg w || statusOp w

/-- The bits of DIN a group command reads (R52, column "reads"; R54). -/
def dinMask : Instr → Word
  | .enc3 => 0x00FFFFFF#32
  | .enc2 => 0x0000FFFF#32
  | .enc1 => 0x000000FF#32
  | .decg => 0xFFFFFFFF#32
  | .alut => 0x0000003F#32
  | .rlut => 0x000000FF#32
  | .clr => 0x00000000#32
  | .encode => 0x00000000#32
  | .decode => 0x00000000#32
  | .check => 0x00000000#32

/-- The input of a stream command: the bytes of MEM in the range (x[SRC], x[LEN]) (R42). -/
def input (s : State) : List Byte := s.readRange s.src.toNat s.len.toNat

/-- `(?:[A-Za-z0-9+/]{4})*`: zero or more groups of four alphabet characters (R73). -/
inductive AlphaGroups : List Byte → Prop where
  | none : AlphaGroups []
  | group {c0 c1 c2 c3 : Byte} {rest : List Byte} : isAlpha c0 = true → isAlpha c1 = true → isAlpha c2 = true →
      isAlpha c3 = true → AlphaGroups rest → AlphaGroups (c0 :: c1 :: c2 :: c3 :: rest)

/-- `(?:[A-Za-z0-9+/]{2}==|[A-Za-z0-9+/]{3}=)?`: nothing, `XX==` or `XXX=` (R73). -/
inductive PaddedTail : List Byte → Prop where
  | none : PaddedTail []
  | two {c0 c1 : Byte} : isAlpha c0 = true → isAlpha c1 = true → PaddedTail [c0, c1, pad, pad]
  | one {c0 c1 c2 : Byte} : isAlpha c0 = true → isAlpha c1 = true → isAlpha c2 = true → PaddedTail [c0, c1, c2, pad]

/-- The whole sequence matches VB64's regular expression (R73). -/
def Grammar (t : List Byte) : Prop := ∃ u v, AlphaGroups u ∧ PaddedTail v ∧ t = u ++ v

/-- The discarded low bits of a string's final block are 0 (R85): of c1 in `XX==`, of c2 in `XXX=`. -/
def DiscardedBitsZero (t : List Byte) : Prop :=
  ∀ c0 c1 c2 c3, [c0, c1, c2, c3] <:+ t → c3 = pad →
    (c2 = pad → (rlut c1).idx &&& 0b1111#6 = 0#6) ∧ (c2 ≠ pad → (rlut c2).idx &&& 0b11#6 = 0#6)

/-- Every byte written to MEM lies in MEM: its address is below MEM_SIZE (10_state.md R24). -/
def memInside (s : State) : Prop := ∀ c ∈ s.mem, c.1 < s.config.memSize

/-- "Lanes of DOUT at or above STATUS.CNT read 0 after a group command that succeeds" (R19). Only such a command leaves
CNT above 0, and no later event but a command changes DOUT or STATUS. -/
def unusedLanesZero (s : State) : Prop :=
  0 < statusCnt s.status → ∀ k, statusCnt s.status ≤ k → k < 4 → lane k s.dout = 0#8

/-- The invariant of the block's state: MEM_SIZE in its range (R6), MEM in canonical form and inside its bounds (R24),
STATUS one of its legal values (R17), and the unused lanes of DOUT 0 (R19). -/
structure BlockInv (s : State) : Prop where
  configWf : s.config.wf = true
  memWf : s.mem.wf = true
  memInside : memInside s
  statusLegal : statusLegal s.status = true
  unusedLanesZero : unusedLanesZero s

/-- The host program, issued to the state, has run to its end without a refusal and left the given state: a clean run (R94). -/
def CleanRun (program : List HostAction) (s t : State) : Prop :=
  s.pending = [] ∧ Host.Core.run Sys2Proof.core program.length (s.issue program) = .next t

end Sys2Proof.Safety
end

