-- ==== Sys2Proof/Certificates/Slice0/Obligations.lean ====
section
/-! DEFINITION. The statements for the provers, from the numbered rules of spec/. Each docstring names its rules. -/

open Sys2Proof Sys2Proof.Machine Sys2Proof.Safety

/-! ## Encoding and the step -/

/-- The ten words of R52, written out, decode to their commands. -/
def Obligations.SpecWordsDecodeToTheirCommands : Prop :=
  decode 0x00000000#32 = .ok .clr ∧ decode 0x00000001#32 = .ok .enc3 ∧ decode 0x00000002#32 = .ok .enc2 ∧
  decode 0x00000003#32 = .ok .enc1 ∧ decode 0x00000004#32 = .ok .decg ∧ decode 0x00000005#32 = .ok .alut ∧
  decode 0x00000006#32 = .ok .rlut ∧ decode 0x00000008#32 = .ok .encode ∧ decode 0x00000009#32 = .ok .decode ∧
  decode 0x0000000A#32 = .ok .check

/-- Decode and encode agree in both directions: a word decodes to a command iff it is that command's word, every one of
which is a legal word (R50, R51, R52). -/
def Obligations.DecodeAndEncodeAgree : Prop :=
  (∀ i : Instr, i.wf = true → decode (encode i) = .ok i) ∧
  (∀ (w : Word) (i : Instr), decode w = .ok i → w = encode i ∧ legalWord w = true)

/-- R53 and R98: a word is illegal iff RSV != 0, or OPC is 0x07, or OPC is in 0x0B..0xFF, and a CMD write of an illegal
word sets STATUS to the code of IllegalCommand and changes nothing else, in every state. -/
def Obligations.IllegalWordsRaiseIllegalCommand : Prop :=
  (∀ w : Word, (∃ e, decode w = .error e) ↔
    (w.extractLsb 31 8 ≠ 0#24 ∨ w.extractLsb 7 0 = 0x07#8 ∨ 0x0B#8 ≤ w.extractLsb 7 0)) ∧
  (∀ (s : State) (rest : List HostAction) (w : Word) (e : DecodeError), s.pending = actionCmd w :: rest →
    decode w = .error e → step s = .next { s with pending := rest, status := 0x00000004#32 })

/-- R16, R26: a CMD write of a word that decodes to a command makes the step that command's exec, on the state with the
write taken from the host's queue; and the word withFetchWord supplies is the next one run. -/
def Obligations.StepRunsTheDecodedCommand : Prop :=
  (∀ (s : State) (rest : List HostAction) (w : Word) (i : Instr), s.pending = actionCmd w :: rest →
    decode w = .ok i → step s = exec i { s with pending := rest }) ∧
  (∀ (s : State) (i : Instr), step (s.withFetchWord 32 (encode i).toNat) = exec i s)

/-- R113: with no host action pending the block is idle and retains all state. -/
def Obligations.IdleBlockRetainsAllState : Prop :=
  ∀ s : State, s.pending = [] → step s = .next s

/-- R95, R121: every command ends, in every state, with a next state; it leaves the instance's parameter, the reset draw and
the host's queue and read values as they were. -/
def Obligations.EveryCommandCompletes : Prop :=
  ∀ (i : Instr) (s : State), ∃ t, exec i s = .next t ∧ t.config = s.config ∧ t.draws = s.draws ∧
    t.pending = s.pending ∧ t.returned = s.returned

/-! ## The tables -/

/-- R12: the entries of ALPHA, in closed form. -/
def Obligations.AlphaHoldsTheStandardAlphabet : Prop :=
  ∀ i : Sextet,
    (i.toNat ≤ 25 → (alpha i).toNat = 0x41 + i.toNat) ∧
    (26 ≤ i.toNat → i.toNat ≤ 51 → (alpha i).toNat = 0x61 + (i.toNat - 26)) ∧
    (52 ≤ i.toNat → i.toNat ≤ 61 → (alpha i).toNat = 0x30 + (i.toNat - 52)) ∧
    (i.toNat = 62 → alpha i = 0x2B#8) ∧ (i.toNat = 63 → alpha i = 0x2F#8)

/-- R13: the entry of a character that some ALPHA entry holds is (1, that index), and of every other character (0, 0). -/
def Obligations.RlutIsTheReverseOfAlpha : Prop :=
  ∀ c : Byte, (∀ i, alpha i = c → rlut c = ⟨true, i⟩) ∧ ((∀ i, alpha i ≠ c) → rlut c = ⟨false, 0#6⟩)

/-- R14: the tables are inverses on the alphabet, and exactly 64 of the 256 codes are valid. -/
def Obligations.TablesAreInversesOnTheAlphabet : Prop :=
  (∀ i : Sextet, rlut (alpha i) = ⟨true, i⟩) ∧
  (∀ c : Byte, (rlut c).valid = true → alpha (rlut c).idx = c) ∧
  ((List.range 256).filter (fun n => (rlut (BitVec.ofNat 8 n)).valid)).length = 64

/-! ## The group commands and CLR -/

/-- R87: CLR, whose word is 0x00000000 and no other (a word with OPC = 0x00 and RSV != 0 is not CLR), writes STATUS = 0 and
leaves everything else. -/
def Obligations.ClrClearsStatusOnly : Prop :=
  (∀ w : Word, decode w = .ok .clr ↔ w = 0x00000000#32) ∧ ∀ s : State, exec .clr s = .next { s with status := 0x00000000#32 }

/-- R58: ALUT puts the character of index DIN[5:0] in DOUT, zero-extended, and CNT = 1 in STATUS, in every state. -/
def Obligations.AlutLooksUpTheAlphabet : Prop :=
  decode 0x00000005#32 = .ok .alut ∧
  ∀ s : State, exec .alut s =
    .next { s with dout := (alpha (s.din.extractLsb 5 0)).setWidth 32, status := 0x00000010#32 }

/-- R59: RLUT puts the index of the character DIN[7:0] in DOUT, zero-extended, and CNT = 1 in STATUS; a character that is
not an alphabet character raises FormatError and leaves DOUT; and the index of an alphabet character that ALUT gave is the
one ALUT was given. -/
def Obligations.RlutLooksUpTheIndex : Prop :=
  decode 0x00000006#32 = .ok .rlut ∧
  (∀ s : State, (rlut (s.din.extractLsb 7 0)).valid = true → exec .rlut s =
    .next { s with dout := (rlut (s.din.extractLsb 7 0)).idx.setWidth 32, status := 0x00000010#32 }) ∧
  (∀ s : State, (rlut (s.din.extractLsb 7 0)).valid = false → exec .rlut s =
    .next { s with status := 0x00000001#32 }) ∧
  (∀ s : State, ∃ t, exec .alut s = .next t ∧ exec .rlut { t with din := t.dout } =
    .next { t with din := t.dout, dout := (s.din.extractLsb 5 0).setWidth 32, status := 0x00000010#32 })

/-- R68, R35: ENC3 cuts {b0, b1, b2} into sextets from the most significant bit down, where b_k is lane k of DIN, and puts
their ALPHA characters in DOUT lanes 0 to 3. -/
def Obligations.Enc3EncodesAFullGroup : Prop :=
  decode 0x00000001#32 = .ok .enc3 ∧
  ∀ s : State, exec .enc3 s =
    .next { s with
      dout := alpha (s.din.extractLsb 21 16) ++ (alpha (s.din.extractLsb 11 8 ++ s.din.extractLsb 23 22) ++
        (alpha (s.din.extractLsb 1 0 ++ s.din.extractLsb 15 12) ++ alpha (s.din.extractLsb 7 2)))
      status := 0x00000040#32 }

/-- R69, R62: ENC2 zero-fills the last produced sextet and puts PAD in lane 3. -/
def Obligations.Enc2EncodesATwoByteRemainder : Prop :=
  decode 0x00000002#32 = .ok .enc2 ∧
  ∀ s : State, exec .enc2 s =
    .next { s with
      dout := 0x3D#8 ++ (alpha (s.din.extractLsb 11 8 ++ 0b00#2) ++
        (alpha (s.din.extractLsb 1 0 ++ s.din.extractLsb 15 12) ++ alpha (s.din.extractLsb 7 2)))
      status := 0x00000040#32 }

/-- R70, R62: ENC1 zero-fills the last produced sextet and puts PAD in lanes 2 and 3. -/
def Obligations.Enc1EncodesAOneByteRemainder : Prop :=
  decode 0x00000003#32 = .ok .enc1 ∧
  ∀ s : State, exec .enc1 s =
    .next { s with
      dout := 0x3D3D#16 ++ (alpha (s.din.extractLsb 1 0 ++ 0b0000#4) ++ alpha (s.din.extractLsb 7 2))
      status := 0x00000040#32 }

/-- R82: DECG by the shape of the block in DIN, c_k in lane k: three, two or one bytes cut from the indices' 24 bits, in
DOUT lanes 0 to k-1 with the others 0 and CNT = k, for `XXXX`, `XXX=` and `XX==`; FormatError for every other block. -/
def Obligations.DecgDecodesOneBlock : Prop :=
  decode 0x00000004#32 = .ok .decg ∧
  ∀ s : State,
    let c0 := s.din.extractLsb 7 0
    let c1 := s.din.extractLsb 15 8
    let c2 := s.din.extractLsb 23 16
    let c3 := s.din.extractLsb 31 24
    let i0 := (rlut c0).idx
    let i1 := (rlut c1).idx
    let i2 := (rlut c2).idx
    let i3 := (rlut c3).idx
    let o0 := i0 ++ i1.extractLsb 5 4
    let o1 := i1.extractLsb 3 0 ++ i2.extractLsb 5 2
    let o2 := i2.extractLsb 1 0 ++ i3
    ((rlut c0).valid = true → (rlut c1).valid = true → (rlut c2).valid = true → (rlut c3).valid = true →
      exec .decg s = .next { s with dout := 0x00#8 ++ (o2 ++ (o1 ++ o0)), status := 0x00000030#32 }) ∧
    ((rlut c0).valid = true → (rlut c1).valid = true → (rlut c2).valid = true → c3 = 0x3D#8 →
      exec .decg s = .next { s with dout := 0x0000#16 ++ (o1 ++ o0), status := 0x00000020#32 }) ∧
    ((rlut c0).valid = true → (rlut c1).valid = true → c2 = 0x3D#8 → c3 = 0x3D#8 →
      exec .decg s = .next { s with dout := 0x000000#24 ++ o0, status := 0x00000010#32 }) ∧
    (¬ ((rlut c0).valid = true ∧ (rlut c1).valid = true ∧
        (((rlut c2).valid = true ∧ (rlut c3).valid = true) ∨ ((rlut c2).valid = true ∧ c3 = 0x3D#8) ∨
          (c2 = 0x3D#8 ∧ c3 = 0x3D#8))) →
      exec .decg s = .next { s with status := 0x00000001#32 })

/-- R86, R82: the group commands invert each other. DECG on what ENC3, ENC2 or ENC1 left in DOUT gives back the bytes they
read from DIN, with their number in CNT. -/
def Obligations.DecgInvertsTheGroupEncoders : Prop :=
  ∀ s : State,
    (∃ t u, exec .enc3 s = .next t ∧ exec .decg { t with din := t.dout } = .next u ∧
      u.dout = (s.din.extractLsb 23 0).setWidth 32 ∧ u.status = 0x00000030#32) ∧
    (∃ t u, exec .enc2 s = .next t ∧ exec .decg { t with din := t.dout } = .next u ∧
      u.dout = (s.din.extractLsb 15 0).setWidth 32 ∧ u.status = 0x00000020#32) ∧
    (∃ t u, exec .enc1 s = .next t ∧ exec .decg { t with din := t.dout } = .next u ∧
      u.dout = (s.din.extractLsb 7 0).setWidth 32 ∧ u.status = 0x00000010#32)

/-- R54: a bit of DIN that a group command does not read has no effect on any result: with another value of DIN that
agrees on the bits read, the command does the same to everything else. -/
def Obligations.IgnoredDinBitsHaveNoEffect : Prop :=
  ∀ (i : Instr) (s t : State) (x : Word), isGroup i = true → x &&& dinMask i = s.din &&& dinMask i →
    exec i s = .next t → exec i { s with din := x } = .next { t with din := x }

/-! ## The codec's functions -/

/-- R60: the sextets of slice3 are VB64's formulas on exact naturals, and the bit slices. -/
def Obligations.SliceThreeIsTheBitSlice : Prop :=
  ∀ b0 b1 b2 : Byte,
    (slice3 b0 b1 b2).s0.toNat = b0.toNat >>> 2 ∧
    (slice3 b0 b1 b2).s1.toNat = (b0.toNat &&& 0b11) <<< 4 ||| b1.toNat >>> 4 ∧
    (slice3 b0 b1 b2).s2.toNat = (b1.toNat &&& 0b1111) <<< 2 ||| b2.toNat >>> 6 ∧
    (slice3 b0 b1 b2).s3.toNat = b2.toNat &&& 0b111111 ∧
    slice3 b0 b1 b2 = ⟨b0.extractLsb 7 2, b0.extractLsb 1 0 ++ b1.extractLsb 7 4,
      b1.extractLsb 3 0 ++ b2.extractLsb 7 6, b2.extractLsb 5 0⟩

/-- R77: the bytes of the reconstructor are VB64's formulas on exact naturals, and the bit slices. -/
def Obligations.ReconstructorIsTheBitSlice : Prop :=
  ∀ i0 i1 i2 i3 : Sextet,
    (reconstruct i0 i1 i2 i3).o0.toNat = i0.toNat <<< 2 ||| i1.toNat >>> 4 ∧
    (reconstruct i0 i1 i2 i3).o1.toNat = (i1.toNat &&& 0b1111) <<< 4 ||| i2.toNat >>> 2 ∧
    (reconstruct i0 i1 i2 i3).o2.toNat = (i2.toNat &&& 0b11) <<< 6 ||| (i3.toNat &&& 0b111111) ∧
    reconstruct i0 i1 i2 i3 = ⟨i0 ++ i1.extractLsb 5 4, i1.extractLsb 3 0 ++ i2.extractLsb 5 2,
      i2.extractLsb 1 0 ++ i3⟩

/-- R64: enc puts the characters of full group g at positions 4g to 4g+3, in ascending g, and then those of the remainder. -/
def Obligations.EncMapsGroupsThenTheRemainder : Prop :=
  ∀ (b : List Byte),
    (∀ (g : Nat) (h : 3 * g + 2 < b.length), ((enc b).drop (4 * g)).take 4 =
      quadChars (encg3 (b[3 * g]'(by omega)) (b[3 * g + 1]'(by omega)) b[3 * g + 2])) ∧
    (∀ (q : Nat) (h : b.length = 3 * q + 1), (enc b).drop (4 * q) = quadChars (encg1 (b[3 * q]'(by omega)))) ∧
    (∀ (q : Nat) (h : b.length = 3 * q + 2), (enc b).drop (4 * q) =
      quadChars (encg2 (b[3 * q]'(by omega)) (b[3 * q + 1]'(by omega)))) ∧
    (∀ q : Nat, b.length = 3 * q → (enc b).drop (4 * q) = [])

/-- R65: the length law. -/
def Obligations.EncLengthLaw : Prop :=
  (∀ b : List Byte, (enc b).length = (b.length + 2) / 3 * 4) ∧ enc [] = []

/-- R66: the padding law. The output ends with `==`, with exactly one `=`, or holds none, by the length modulo 3, and PAD
stands nowhere else. -/
def Obligations.EncPaddingLaw : Prop :=
  ∀ b : List Byte,
    ((∃ u, enc b = u ++ [pad, pad]) ↔ b.length % 3 = 1) ∧
    ((∃ u c, c ≠ pad ∧ enc b = u ++ [c, pad]) ↔ b.length % 3 = 2) ∧
    (pad ∉ enc b ↔ b.length % 3 = 0) ∧
    (∀ k, (enc b)[k]? = some pad →
      (b.length % 3 = 1 ∧ (enc b).length ≤ k + 2) ∨ (b.length % 3 = 2 ∧ (enc b).length ≤ k + 1))

/-- R73: the exact predicate valid holds of exactly the sequences VB64's regular expression matches. -/
def Obligations.ValidIffTheRegularExpressionMatches : Prop :=
  ∀ t : List Byte, valid t = true ↔ Grammar t

/-- R75: in a valid string PAD stands in exactly the last pads(T) positions, at most two, and every other character is an
alphabet character. -/
def Obligations.PadStandsOnlyAtTheEndOfAValidString : Prop :=
  pads [] = 0 ∧
  ∀ t : List Byte, valid t = true → pads t ≤ 2 ∧
    ∀ (k : Nat) (h : k < t.length), (t[k] = pad ↔ t.length ≤ k + pads t) ∧ (t[k] ≠ pad → isAlpha t[k] = true)

/-- R76: the output length of a valid string, and its bounds. -/
def Obligations.DecodedLengthLaw : Prop :=
  ∀ t : List Byte, valid t = true →
    decLength t = t.length / 4 * 3 - pads t ∧ t.length * 3 / 4 = t.length / 4 * 3 ∧
    (dec t).length = decLength t ∧
    (0 < t.length → t.length / 4 * 3 - 2 ≤ decLength t ∧ 1 ≤ decLength t) ∧ (t.length = 0 → decLength t = 0)

/-- R81: dec of a valid string puts the bytes of block g at position 3g, in ascending g: the first k of the reconstructor's
three bytes, on the RLUT indices of the data characters and 0 for PAD; only the final block has k < 3. -/
def Obligations.DecReconstructsBlocksInOrder : Prop :=
  ∀ t : List Byte, valid t = true →
    dec [] = [] ∧ (dec t).length = decLength t ∧
    ∀ (g : Nat) (h : 4 * g + 3 < t.length),
      let c0 := t[4 * g]'(by omega)
      let c1 := t[4 * g + 1]'(by omega)
      let c2 := t[4 * g + 2]'(by omega)
      let c3 := t[4 * g + 3]
      let index := fun c : Byte => if c = pad then 0#6 else (rlut c).idx
      let o := reconstruct (index c0) (index c1) (index c2) (index c3)
      let k := if c3 ≠ pad then 3 else if c2 ≠ pad then 2 else 1
      ((dec t).drop (3 * g)).take 3 = [o.o0, o.o1, o.o2].take k ∧ (4 * g + 4 < t.length → k = 3)

/-- R79, D28: the index a PAD position contributes is unobservable: with any other values in the PAD positions of a block of
a final-group shape, the written bytes are the same. -/
def Obligations.PaddingIndexIsUnobservable : Prop :=
  ∀ (q : Quad) (x y : Sextet), vgroup q = true →
    let o := reconstruct (rlut q.c0).idx (rlut q.c1).idx (if q.c2 = pad then x else (rlut q.c2).idx)
      (if q.c3 = pad then y else (rlut q.c3).idx)
    [o.o0, o.o1, o.o2].take (blockCount q) = blockBytes q

/-- R86: for every byte sequence, its encoding is valid and decodes to it. -/
def Obligations.DecodingInvertsEncoding : Prop :=
  ∀ b : List Byte, valid (enc b) = true ∧ dec (enc b) = b

/-- R85: the discarded low bits of the last data character of a padded final block may be anything: the string stays valid
and its bytes the same; so dec is not injective, and encoding what was decoded restores a valid string iff those bits
are 0. -/
def Obligations.DiscardedBitsAreAcceptedAndDropped : Prop :=
  (∀ (u : List Byte) (c0 c1 c1' : Byte), valid (u ++ [c0, c1, pad, pad]) = true → isAlpha c1' = true →
    (rlut c1').idx >>> 4 = (rlut c1).idx >>> 4 →
    valid (u ++ [c0, c1', pad, pad]) = true ∧ dec (u ++ [c0, c1', pad, pad]) = dec (u ++ [c0, c1, pad, pad])) ∧
  (∀ (u : List Byte) (c0 c1 c2 c2' : Byte), valid (u ++ [c0, c1, c2, pad]) = true → isAlpha c2' = true →
    c2 ≠ pad → (rlut c2').idx >>> 2 = (rlut c2).idx >>> 2 →
    valid (u ++ [c0, c1, c2', pad]) = true ∧ dec (u ++ [c0, c1, c2', pad]) = dec (u ++ [c0, c1, c2, pad])) ∧
  dec [0x5A#8, 0x67#8, 0x3D#8, 0x3D#8] = [0x66#8] ∧ dec [0x5A#8, 0x68#8, 0x3D#8, 0x3D#8] = [0x66#8] ∧
  (∀ t : List Byte, valid t = true → (enc (dec t) = t ↔ DiscardedBitsZero t))

/-! ## The stream commands -/

/-- R71: ENCODE. The three checks in order, each raising InvalidArgument; otherwise the encoding of the input is stored from
x[DST] on, OLEN and STATUS are written, and every other byte of MEM and every other register is unchanged. -/
def Obligations.EncodeEncodesABuffer : Prop :=
  decode 0x00000008#32 = .ok .encode ∧
  ∀ s : State,
    let a := s.src.toNat
    let n := s.len.toNat
    let d := s.dst.toNat
    let m := (n + 2) / 3 * 4
    (s.config.memSize < a + n → exec .encode s = .next { s with status := 0x00000002#32 }) ∧
    (a + n ≤ s.config.memSize → s.config.memSize < d + m →
      exec .encode s = .next { s with status := 0x00000002#32 }) ∧
    (a + n ≤ s.config.memSize → d + m ≤ s.config.memSize → (0 < n ∧ 0 < m ∧ a < d + m ∧ d < a + n) →
      exec .encode s = .next { s with status := 0x00000002#32 }) ∧
    (a + n ≤ s.config.memSize → d + m ≤ s.config.memSize → ¬ (0 < n ∧ 0 < m ∧ a < d + m ∧ d < a + n) →
      ∃ t, exec .encode s = .next t ∧
        t = { s with mem := t.mem, olen := BitVec.ofNat 32 m, status := 0x00000000#32 } ∧
        (∀ k < m, (enc (input s))[k]? = some (t.readByte (d + k))) ∧
        (∀ x, x < d ∨ d + m ≤ x → t.readByte x = s.readByte x))

/-- R83: CHECK. The input range, then the grammar; otherwise OLEN receives the length DECODE would write. -/
def Obligations.CheckValidatesAString : Prop :=
  decode 0x0000000A#32 = .ok .check ∧
  ∀ s : State,
    (s.config.memSize < s.src.toNat + s.len.toNat → exec .check s = .next { s with status := 0x00000002#32 }) ∧
    (s.src.toNat + s.len.toNat ≤ s.config.memSize → ¬ Grammar (input s) →
      exec .check s = .next { s with status := 0x00000001#32 }) ∧
    (s.src.toNat + s.len.toNat ≤ s.config.memSize → Grammar (input s) →
      exec .check s = .next { s with
        olen := BitVec.ofNat 32 ((input s).length / 4 * 3 - pads (input s)), status := 0x00000000#32 })

/-- R84: DECODE. The input range, the grammar, the output range and overlap in order; otherwise the decoded bytes are
stored from x[DST] on, OLEN and STATUS are written, and every other byte of MEM and every other register is unchanged. -/
def Obligations.DecodeDecodesAString : Prop :=
  decode 0x00000009#32 = .ok .decode ∧
  ∀ s : State,
    let a := s.src.toNat
    let n := s.len.toNat
    let d := s.dst.toNat
    let m := n / 4 * 3 - pads (input s)
    (s.config.memSize < a + n → exec .decode s = .next { s with status := 0x00000002#32 }) ∧
    (a + n ≤ s.config.memSize → ¬ Grammar (input s) →
      exec .decode s = .next { s with status := 0x00000001#32 }) ∧
    (a + n ≤ s.config.memSize → Grammar (input s) → s.config.memSize < d + m →
      exec .decode s = .next { s with status := 0x00000002#32 }) ∧
    (a + n ≤ s.config.memSize → Grammar (input s) → d + m ≤ s.config.memSize →
      (0 < n ∧ 0 < m ∧ a < d + m ∧ d < a + n) → exec .decode s = .next { s with status := 0x00000002#32 }) ∧
    (a + n ≤ s.config.memSize → Grammar (input s) → d + m ≤ s.config.memSize →
      ¬ (0 < n ∧ 0 < m ∧ a < d + m ∧ d < a + n) →
      ∃ t, exec .decode s = .next t ∧
        t = { s with mem := t.mem, olen := BitVec.ofNat 32 m, status := 0x00000000#32 } ∧
        (∀ k < m, (dec (input s))[k]? = some (t.readByte (d + k))) ∧
        (∀ x, x < d ∨ d + m ≤ x → t.readByte x = s.readByte x))

/-- R44: the length a successful stream command writes to OLEN is below 2^32, so OLEN holds it exactly. -/
def Obligations.OutputLengthFitsOlen : Prop :=
  ∀ s t : State, s.config.wf = true → t.status = 0x00000000#32 →
    (exec .encode s = .next t →
      encLength s.len.toNat < 2 ^ 32 ∧ t.olen.toNat = encLength s.len.toNat) ∧
    (exec .decode s = .next t → decLength (input s) < 2 ^ 32 ∧ t.olen.toNat = decLength (input s)) ∧
    (exec .check s = .next t → decLength (input s) < 2 ^ 32 ∧ t.olen.toNat = decLength (input s))

/-- R86 in the block's own terms: ENCODE, then DECODE of its output to any place, both succeeding, leaves there the bytes
that ENCODE read, and their number in OLEN. -/
def Obligations.EncodeThenDecodeRestoresTheBuffer : Prop :=
  ∀ (s t u : State) (e : Word), s.config.wf = true →
    exec .encode s = .next t → t.status = 0x00000000#32 →
    exec .decode { t with src := s.dst, len := t.olen, dst := e } = .next u → u.status = 0x00000000#32 →
    u.olen = s.len ∧ ∀ k < s.len.toNat, u.readByte (e.toNat + k) = s.readByte (s.src.toNat + k)

/-- R83: CHECK and DECODE on one state agree: where DECODE succeeds so does CHECK, with the same OLEN, and CHECK reports
FormatError iff DECODE does. -/
def Obligations.CheckPredictsDecode : Prop :=
  ∀ s t u : State, exec .check s = .next t → exec .decode s = .next u →
    (u.status = 0x00000000#32 → t.status = 0x00000000#32 ∧ t.olen = u.olen) ∧
    (t.status = 0x00000001#32 ↔ u.status = 0x00000001#32)

/-- R3: ENCODE of a buffer of 3, 2 or 1 bytes stores the characters that ENC3, ENC2 or ENC1 gives on the same bytes in
DIN. -/
def Obligations.StreamEncodeAgreesWithTheGroupEncoders : Prop :=
  ∀ (s t : State), exec .encode s = .next t → t.status = 0x00000000#32 →
    (∀ k < s.len.toNat, lane k s.din = s.readByte (s.src.toNat + k)) →
    (s.len = 3#32 → ∃ u, exec .enc3 s = .next u ∧ ∀ k < 4, t.readByte (s.dst.toNat + k) = lane k u.dout) ∧
    (s.len = 2#32 → ∃ u, exec .enc2 s = .next u ∧ ∀ k < 4, t.readByte (s.dst.toNat + k) = lane k u.dout) ∧
    (s.len = 1#32 → ∃ u, exec .enc1 s = .next u ∧ ∀ k < 4, t.readByte (s.dst.toNat + k) = lane k u.dout)

/-- R48, R28: what a stream command reports and stores depends only on MEM_SIZE, the registers it reads and the bytes of its
input range: two states that agree on those get the same STATUS, and on success the same OLEN and output bytes. -/
def Obligations.StreamOutputDependsOnItsInputOnly : Prop :=
  ∀ (i : Instr) (s s' t t' : State), isStream i = true →
    s'.config = s.config → s'.src = s.src → s'.len = s.len → s'.dst = s.dst →
    (∀ k < s.len.toNat, s'.readByte (s.src.toNat + k) = s.readByte (s.src.toNat + k)) →
    exec i s = .next t → exec i s' = .next t' →
    t'.status = t.status ∧
    (t.status = 0x00000000#32 → t'.olen = t.olen ∧
      (i ≠ .check → ∀ k < t.olen.toNat, t'.readByte (s.dst.toNat + k) = t.readByte (s.dst.toNat + k)))

/-! ## Frames -/

/-- The frame of CLR and the group commands (R18, R19, R39, R118): a next state differs in DOUT and STATUS at most, in DOUT
only on success of a group command; DIN and every byte of MEM are unchanged. -/
def Obligations.GroupCommandsWriteOnlyDoutAndStatus : Prop :=
  ∀ (i : Instr) (s t : State), i = .clr ∨ isGroup i = true → exec i s = .next t →
    t = { s with dout := t.dout, status := t.status } ∧
    (i = .clr ∨ reportsError t.status = true → t.dout = s.dout) ∧
    (∀ a, t.readByte a = s.readByte a)

/-- The frame of the stream commands (R23, R39, R118): a next state differs in MEM, OLEN and STATUS at most, in MEM and
OLEN only on success; the bytes stored are those of the output range at x[DST], none for CHECK; every other byte of MEM
reads as before. -/
def Obligations.StreamCommandsWriteOnlyTheirOutput : Prop :=
  ∀ (i : Instr) (s t : State), isStream i = true → exec i s = .next t →
    t = { s with mem := t.mem, olen := t.olen, status := t.status } ∧
    (reportsError t.status = true → t.olen = s.olen ∧ t.mem = s.mem) ∧
    (i = .check → t.mem = s.mem) ∧
    (i = .encode → ∀ a, a < s.dst.toNat ∨ s.dst.toNat + encLength s.len.toNat ≤ a →
      t.readByte a = s.readByte a) ∧
    (i = .decode → ∀ a, a < s.dst.toNat ∨ s.dst.toNat + decLength (input s) ≤ a → t.readByte a = s.readByte a)

/-- R118: no command writes DIN, SRC, LEN or DST; DOUT changes only by a group command that succeeds, OLEN only by a stream
command that succeeds; and a host action that is neither a CMD write nor RESET leaves STATUS, DOUT and OLEN. -/
def Obligations.RegistersKeepTheirValuesAcrossCommands : Prop :=
  (∀ (w : Word) (s t : State), command w s = .next t →
    t.din = s.din ∧ t.src = s.src ∧ t.len = s.len ∧ t.dst = s.dst ∧
    (t.dout ≠ s.dout → ∃ i, decode w = .ok i ∧ isGroup i = true ∧ reportsError t.status = false) ∧
    (t.olen ≠ s.olen → ∃ i, decode w = .ok i ∧ isStream i = true ∧ reportsError t.status = false)) ∧
  (∀ (a : HostAction) (s t : State), a ≠ .reset → (∀ w, a ≠ actionCmd w) → perform a s = .next t →
    t.status = s.status ∧ t.dout = s.dout ∧ t.olen = s.olen)

/-! ## Errors -/

/-- R103: raising a class puts its code of R95 in STATUS and changes nothing else; and a command that reports an error did
exactly that, so the host's next action finds every other register and byte of MEM as before. -/
def Obligations.ErrorsWriteStatusOnly : Prop :=
  (∀ s : State, raise .formatError s = { s with status := 0x00000001#32 } ∧
    raise .invalidArgument s = { s with status := 0x00000002#32 } ∧
    raise .illegalCommand s = { s with status := 0x00000004#32 }) ∧
  (∀ (w : Word) (s t : State), command w s = .next t → reportsError t.status = true →
    ∃ e : ErrorClass, t = raise e s)

/-- R104, R17: every command rewrites STATUS completely: the value it leaves is legal and does not depend on the one before,
and neither does anything else it does. -/
def Obligations.EveryCommandRewritesStatus : Prop :=
  ∀ (w x : Word) (s : State), ∃ t, command w s = .next t ∧ command w { s with status := x } = .next t ∧
    statusLegal t.status = true

/-- R96: which commands raise which class, and the causes the table names. -/
def Obligations.EachCommandRaisesOnlyItsClasses : Prop :=
  (∀ (i : Instr) (s t : State), exec i s = .next t →
    (statusFmt t.status = true → i = .rlut ∨ i = .decg ∨ i = .decode ∨ i = .check) ∧
    (statusArg t.status = true → i = .encode ∨ i = .decode ∨ i = .check) ∧
    statusOp t.status = false ∧
    (i = .rlut → (statusFmt t.status = true ↔ isAlpha (lane 0 s.din) = false)) ∧
    (i = .decg → (statusFmt t.status = true ↔ vgroup (lanesOf s.din) = false)) ∧
    (i = .check → (statusArg t.status = true ↔ s.config.memSize < s.src.toNat + s.len.toNat))) ∧
  (∀ (w : Word) (s t : State) (e : DecodeError), decode w = .error e → command w s = .next t →
    statusOp t.status = true ∧ statusFmt t.status = false ∧ statusArg t.status = false) ∧
  (∀ i, i = .rlut ∨ i = .decg ∨ i = .decode ∨ i = .check → ∃ s t, exec i s = .next t ∧ statusFmt t.status = true) ∧
  (∀ i, i = .encode ∨ i = .decode ∨ i = .check → ∃ s t, exec i s = .next t ∧ statusArg t.status = true)

/-- R102: the first error in the order IllegalCommand, input range, grammar, output range and overlap is the one reported,
whatever the later ones are. -/
def Obligations.TheFirstErrorInOrderIsReported : Prop :=
  (∀ (w : Word) (e : DecodeError) (s : State), decode w = .error e →
    command w s = .next { s with status := 0x00000004#32 }) ∧
  (∀ (i : Instr) (s : State), isStream i = true → s.config.memSize < s.src.toNat + s.len.toNat →
    exec i s = .next { s with status := 0x00000002#32 }) ∧
  (∀ (i : Instr) (s : State), i = .decode ∨ i = .check → s.src.toNat + s.len.toNat ≤ s.config.memSize →
    valid (input s) = false → exec i s = .next { s with status := 0x00000001#32 }) ∧
  (∀ s : State, s.src.toNat + s.len.toNat ≤ s.config.memSize →
    s.config.memSize < s.dst.toNat + encLength s.len.toNat ∨
      overlaps s.src.toNat s.len.toNat s.dst.toNat (encLength s.len.toNat) = true →
    exec .encode s = .next { s with status := 0x00000002#32 }) ∧
  (∀ s : State, s.src.toNat + s.len.toNat ≤ s.config.memSize → valid (input s) = true →
    s.config.memSize < s.dst.toNat + decLength (input s) ∨
      overlaps s.src.toNat s.len.toNat s.dst.toNat (decLength (input s)) = true →
    exec .decode s = .next { s with status := 0x00000002#32 })

/-! ## Host actions and reset -/

/-- R90: a 32-bit write to CMD runs the command or raises IllegalCommand; a write to DIN, SRC, LEN or DST stores the value
and changes nothing else; a write to STATUS, DOUT or OLEN is refused. -/
def Obligations.HostRegisterWrites : Prop :=
  ∀ (s : State) (rest : List HostAction) (v : Word),
    (s.pending = actionWr .din v :: rest → step s = .next { s with pending := rest, din := v }) ∧
    (s.pending = actionWr .src v :: rest → step s = .next { s with pending := rest, src := v }) ∧
    (s.pending = actionWr .len v :: rest → step s = .next { s with pending := rest, len := v }) ∧
    (s.pending = actionWr .dst v :: rest → step s = .next { s with pending := rest, dst := v }) ∧
    (s.pending = actionWr .cmd v :: rest →
      (∀ i, decode v = .ok i → step s = exec i { s with pending := rest }) ∧
      (∀ e, decode v = .error e → step s = .next { s with pending := rest, status := 0x00000004#32 })) ∧
    (∀ r, r = .status ∨ r = .dout ∨ r = .olen → s.pending = actionWr r v :: rest → ∃ x, step s = .refused x)

/-- R91: a read of any register but CMD returns its value, as the newest of the values returned, and changes nothing; a
read of CMD is refused. -/
def Obligations.HostRegisterReads : Prop :=
  ∀ (s : State) (rest : List HostAction),
    let returns := fun v : Word => (Host.Outcome.next { s with pending := rest, returned := s.returned ++ [.reg v] } :
      Host.Outcome State Fault Refusal)
    (s.pending = actionRd .status :: rest → step s = returns s.status) ∧
    (s.pending = actionRd .din :: rest → step s = returns s.din) ∧
    (s.pending = actionRd .dout :: rest → step s = returns s.dout) ∧
    (s.pending = actionRd .src :: rest → step s = returns s.src) ∧
    (s.pending = actionRd .len :: rest → step s = returns s.len) ∧
    (s.pending = actionRd .dst :: rest → step s = returns s.dst) ∧
    (s.pending = actionRd .olen :: rest → step s = returns s.olen) ∧
    (s.pending = actionRd .cmd :: rest → ∃ x, step s = .refused x)

/-- R92: MWR below MEM_SIZE stores the byte there and leaves every other byte and every register; MRD below MEM_SIZE
returns the byte and changes nothing; either at MEM_SIZE or above is refused. -/
def Obligations.HostMemAccesses : Prop :=
  ∀ (s : State) (rest : List HostAction) (a : Nat) (v : Byte),
    (s.pending = actionMwr a v :: rest → a < s.config.memSize →
      ∃ t, step s = .next t ∧ t = { s with pending := rest, mem := t.mem } ∧ t.readByte a = v ∧
        ∀ x, x ≠ a → t.readByte x = s.readByte x) ∧
    (s.pending = actionMrd a :: rest → a < s.config.memSize →
      step s = .next { s with pending := rest, returned := s.returned ++ [.mem (s.readByte a)] }) ∧
    (s.pending = actionMwr a v :: rest ∨ s.pending = actionMrd a :: rest → s.config.memSize ≤ a →
      ∃ x, step s = .refused x)

/-- R93: a host action is refused iff it is one of the seven listed accesses, and a refusal ends the run for good. -/
def Obligations.RefusedExactlyTheUndefinedAccesses : Prop :=
  (∀ (s : State) (a : HostAction) (rest : List HostAction), s.pending = a :: rest →
    ((∃ x, step s = .refused x) ↔
      ∃ t : Transaction, a = .bus t ∧
        ((t.space = .reg ∧ t.address ∉ [0x00, 0x04, 0x08, 0x0C, 0x10, 0x14, 0x18, 0x1C]) ∨
         (t.space = .reg ∧ t.width ≠ 32) ∨
         (t.space = .reg ∧ t.address % 4 ≠ 0) ∨
         (t.space = .reg ∧ t.address ∈ [0x04, 0x0C, 0x1C] ∧ t.transfer ≠ .read) ∨
         (t.space = .reg ∧ t.address = 0x00 ∧ t.transfer = .read) ∨
         (t.space = .mem ∧ t.width ≠ 8) ∨
         (t.space = .mem ∧ s.config.memSize ≤ t.address)))) ∧
  (∀ (s : State) (x : Refusal), step s = .refused x → ∀ k, Host.Core.run core (k + 1) s = .refused x)

/-- R114: RESET puts every register to 0 and every byte of MEM to a fresh draw, one of a draw number not used before. That
the host's queue and the values it has read stay is the model's choice (log 5). -/
def Obligations.ResetActionClearsTheBlock : Prop :=
  ∀ (s : State) (rest : List HostAction), s.pending = .reset :: rest →
    ∃ t, step s = .next t ∧ t.status = 0#32 ∧ t.din = 0#32 ∧ t.dout = 0#32 ∧ t.src = 0#32 ∧ t.len = 0#32 ∧
      t.dst = 0#32 ∧ t.olen = 0#32 ∧ (∀ a, t.readByte a = Config.memDraw (s.draws + 1) a) ∧
      t.draws = s.draws + 1 ∧ t.config = s.config ∧ t.pending = rest ∧ t.returned = s.returned

/-- R30: after reset every register is 0 and every byte of MEM is its draw. -/
def Obligations.RegistersAreZeroAfterReset : Prop :=
  State.reset.status = 0x00000000#32 ∧ State.reset.din = 0x00000000#32 ∧ State.reset.dout = 0x00000000#32 ∧
  State.reset.src = 0x00000000#32 ∧ State.reset.len = 0x00000000#32 ∧ State.reset.dst = 0x00000000#32 ∧
  State.reset.olen = 0x00000000#32 ∧ ∀ a, State.reset.readByte a = Config.memDraw State.reset.draws a

/-- R45, R94: a clean run performs its actions in order and ends with none pending; running one program and then another is
running the two as one. -/
def Obligations.CleanRunsDrainTheQueueAndCompose : Prop :=
  ∀ (p q : List HostAction) (s u : State),
    (CleanRun p s u → u.pending = []) ∧
    (CleanRun (p ++ q) s u ↔ ∃ t, CleanRun p s t ∧ CleanRun q t u)

/-- The expansions of the pseudo-actions by the table of R57, for operands of the model's widths. That the operands of DIN4 and
MWRB are bytes, and the addresses and lengths words, is the model's choice (log 6). -/
def Obligations.PseudoActionsExpandAsTabled : Prop :=
  expandPseudo (.enc .one) = [actionCmd 0x00000003#32] ∧
  expandPseudo (.enc .two) = [actionCmd 0x00000002#32] ∧
  expandPseudo (.enc .three) = [actionCmd 0x00000001#32] ∧
  (∀ c0 c1 c2 c3 : Byte, expandPseudo (.din4 c0 c1 c2 c3) = [actionWr .din (c3 ++ (c2 ++ (c1 ++ c0)))]) ∧
  (∀ (a : Word) (v0 : Byte) (vs : List Byte) (j : Nat), (expandPseudo (.mwrb a v0 vs))[j]? =
    ((v0 :: vs)[j]?).map (fun v => actionMwr (a.toNat + j) v)) ∧
  (∀ (a : Word) (t : List Byte) (j : Nat), (expandPseudo (.mwrs a t))[j]? =
    (t[j]?).map (fun v => actionMwr (a.toNat + j) v)) ∧
  (∀ a n d : Word, expandPseudo (.encode a n d) =
    [actionWr .src a, actionWr .len n, actionWr .dst d, actionCmd 0x00000008#32]) ∧
  (∀ a n d : Word, expandPseudo (.decode a n d) =
    [actionWr .src a, actionWr .len n, actionWr .dst d, actionCmd 0x00000009#32]) ∧
  (∀ a n : Word, expandPseudo (.check a n) = [actionWr .src a, actionWr .len n, actionCmd 0x0000000A#32])

/-! ## The invariant -/

/-- The invariant holds at reset (R6, R17, R19, R24, R30). -/
def Obligations.ResetMeetsTheInvariant : Prop := BlockInv State.reset

/-- Every step keeps the invariant, whatever host action it performs: MEM_SIZE stays in its range (R6), MEM in canonical
form and inside its bounds (R24), STATUS legal (R17), and the lanes of DOUT at or above STATUS.CNT 0 while CNT is above 0
(R19). -/
def Obligations.EveryStepKeepsTheInvariant : Prop :=
  ∀ s t : State, BlockInv s → step s = .next t → BlockInv t

/-- A step that performs a pending host action keeps MEM_SIZE (a parameter of the instance, R6), and every such action but
RESET keeps the number of the reset draw (only RESET draws MEM afresh, R114). That the action is taken from a queue in State is
the model's choice (log 2), and so are numbering the draws (log 3) and RESET keeping MEM_SIZE and the rest of the queue (log 5).
The idle step, with no action pending, is IdleBlockRetainsAllState. -/
def Obligations.OnlyResetDrawsMemAgain : Prop :=
  ∀ (s t : State) (a : HostAction) (rest : List HostAction), s.pending = a :: rest → step s = .next t →
    t.config = s.config ∧ t.pending = rest ∧ (a ≠ .reset → t.draws = s.draws)
end

