-- ==== Sys2Proof/Laws/Codec.lean ====
section
/-! SUPPORT. The equations of the codec's functions, one per shape of input, so that proofs need not unfold them. -/

namespace Sys2Proof.Machine

@[simp] theorem enc_nil : enc [] = [] := rfl

@[simp] theorem enc_one (b0 : Byte) : enc [b0] = quadChars (encg1 b0) := rfl

@[simp] theorem enc_two (b0 b1 : Byte) : enc [b0, b1] = quadChars (encg2 b0 b1) := rfl

@[simp] theorem enc_group (b0 b1 b2 : Byte) (rest : List Byte) :
    enc (b0 :: b1 :: b2 :: rest) = quadChars (encg3 b0 b1 b2) ++ enc rest := rfl

@[simp] theorem dec_nil : dec [] = [] := rfl

@[simp] theorem dec_block (c0 c1 c2 c3 : Byte) (rest : List Byte) :
    dec (c0 :: c1 :: c2 :: c3 :: rest) = blockBytes ⟨c0, c1, c2, c3⟩ ++ dec rest := rfl

@[simp] theorem quadChars_length (q : Quad) : (quadChars q).length = 4 := rfl

theorem blockCount_pos (q : Quad) : 1 ≤ blockCount q := by
  unfold blockCount
  split
  · omega
  · split <;> omega

theorem blockCount_le (q : Quad) : blockCount q ≤ 3 := by
  unfold blockCount
  split
  · omega
  · split <;> omega

@[simp] theorem blockBytes_length (q : Quad) : (blockBytes q).length = blockCount q := by
  simp [blockBytes, blockCount_le]

/-- ALPHA never holds PAD. -/
theorem alpha_ne_pad (i : Sextet) : alpha i ≠ pad := by
  revert i
  decide

/-- Every ALPHA entry is an alphabet character. -/
@[simp] theorem isAlpha_alpha (i : Sextet) : isAlpha (alpha i) = true := by
  revert i
  decide

@[simp] theorem isAlpha_pad : isAlpha pad = false := by decide

theorem ne_pad_of_isAlpha {c : Byte} (h : isAlpha c = true) : c ≠ pad := by
  rintro rfl
  simp at h

end Sys2Proof.Machine
end

