-- ==== Sys2Proof/Laws/Operands.lean ====
section
/-! SUPPORT. The lanes of a packed word, and the register map both ways. -/

namespace Sys2Proof.Machine

/-- A lane as a number: the digit of its place, base 256. -/
theorem lane_toNat (k : Nat) (w : Word) : (lane k w).toNat = w.toNat / 2 ^ (8 * k) % 2 ^ 8 := by
  simp [lane, BitVec.extractLsb'_toNat, Nat.shiftRight_eq_div_pow]

/-- Bit j of lane k of a word. -/
theorem lane_getElem (k : Nat) (w : Word) (j : Nat) (h : j < 8) : (lane k w)[j] = w.getLsbD (8 * k + j) := by
  simp [lane]

/-- A packed word, bit by bit. -/
theorem packLanes_getLsbD (q : Quad) (j : Nat) : (packLanes q).getLsbD j =
    if j < 8 then q.c0.getLsbD j else if j < 16 then q.c1.getLsbD (j - 8)
    else if j < 24 then q.c2.getLsbD (j - 16) else if j < 32 then q.c3.getLsbD (j - 24) else false := by
  simp only [packLanes, BitVec.getLsbD_or, BitVec.getLsbD_shiftLeft, BitVec.getLsbD_setWidth]
  rcases Nat.lt_or_ge j 8 with h | h
  · have h1 : j < 32 := by omega
    have h2 : j < 16 := by omega
    have h3 : j < 24 := by omega
    simp [h, h1, h2, h3]
  · have e0 : q.c0.getLsbD j = false := BitVec.getLsbD_of_ge _ _ (by omega)
    rcases Nat.lt_or_ge j 16 with h' | h'
    · have h1 : j < 32 := by omega
      have h2 : j - 8 < 32 := by omega
      have h3 : j < 24 := by omega
      have h4 : ¬ j < 8 := by omega
      simp [h', h1, h2, h3, h4, e0]
    · have e1 : q.c1.getLsbD (j - 8) = false := BitVec.getLsbD_of_ge _ _ (by omega)
      rcases Nat.lt_or_ge j 24 with h'' | h''
      · have h1 : j < 32 := by omega
        have h2 : j - 16 < 32 := by omega
        have h3 : ¬ j < 16 := by omega
        have h4 : ¬ j < 8 := by omega
        simp [h'', h1, h2, h3, h4, e0, e1]
      · have e2 : q.c2.getLsbD (j - 16) = false := BitVec.getLsbD_of_ge _ _ (by omega)
        have h3 : ¬ j < 16 := by omega
        have h4 : ¬ j < 8 := by omega
        have h5 : ¬ j < 24 := by omega
        by_cases h6 : j < 32
        · have h2 : j - 24 < 32 := by omega
          simp [h3, h4, h5, h6, h2, e0, e1, e2]
        · simp [h3, h4, h5, h6, e0]

/-- The lanes of a packed word are what was packed. -/
@[simp] theorem lanesOf_packLanes (q : Quad) : lanesOf (packLanes q) = q := by
  obtain ⟨c0, c1, c2, c3⟩ := q
  simp only [lanesOf, Quad.mk.injEq]
  refine ⟨?_, ?_, ?_, ?_⟩ <;> refine BitVec.eq_of_getElem_eq (fun j h => ?_) <;>
    rw [lane_getElem _ _ _ h, packLanes_getLsbD]
  · rw [if_pos (by omega), BitVec.getLsbD_eq_getElem (by omega)]
    simp
  · rw [if_neg (by omega), if_pos (by omega), BitVec.getLsbD_eq_getElem (by omega)]
    simp
  · rw [if_neg (by omega), if_neg (by omega), if_pos (by omega), BitVec.getLsbD_eq_getElem (by omega)]
    simp
  · rw [if_neg (by omega), if_neg (by omega), if_neg (by omega), if_pos (by omega),
      BitVec.getLsbD_eq_getElem (by omega)]
    simp

/-- Each register is the one at its offset (R32). -/
@[simp] theorem regAt_regOffset (r : Reg) : regAt (regOffset r) = some r := by
  cases r <;> rfl

/-- A register is found only at its own offset (R32). -/
theorem regOffset_of_regAt {offset : Nat} {r : Reg} (h : regAt offset = some r) : offset = regOffset r := by
  unfold regAt at h
  split at h <;> first | (cases h; rfl) | cases h

/-- Every register's offset is a multiple of 4 (R32, R38). -/
theorem regOffset_aligned (r : Reg) : regOffset r % 4 = 0 := by
  cases r <;> rfl

end Sys2Proof.Machine
end

