-- ==== Sys2Proof/Laws/HostActions.lean ====
section
/-! SUPPORT. Each host action as the access it makes, so that proofs need not unfold the bus. -/

namespace Sys2Proof.Machine

@[simp] theorem perform_reset (s : State) : perform .reset s = .next (resetBlock s) := rfl

@[simp] theorem perform_actionWr (r : Reg) (v : Word) (s : State) : perform (actionWr r v) s = writeReg r v s := by
  simp [perform, actionWr, regAccess, regOffset_aligned]

@[simp] theorem perform_actionRd (r : Reg) (s : State) : perform (actionRd r) s = readReg r s := by
  simp [perform, actionRd, regAccess, regOffset_aligned]

@[simp] theorem perform_actionCmd (w : Word) (s : State) : perform (actionCmd w) s = command w s := by
  simp [actionCmd, writeReg]

theorem perform_actionMwr {a : Nat} {s : State} (v : Byte) (h : a < s.config.memSize) :
    perform (actionMwr a v) s = .next (s.writeByte a v) := by
  simp [perform, actionMwr, memAccess, Nat.not_le.2 h]

theorem perform_actionMrd {a : Nat} {s : State} (h : a < s.config.memSize) :
    perform (actionMrd a) s = .next { s with returned := s.returned ++ [.mem (s.readByte a)] } := by
  simp [perform, actionMrd, memAccess, Nat.not_le.2 h]

theorem command_of_ok {w : Word} {i : Instr} (s : State) (h : decode w = .ok i) : command w s = exec i s := by
  simp [command, h]

theorem command_of_error {w : Word} {e : DecodeError} (s : State) (h : decode w = .error e) :
    command w s = .next (raise .illegalCommand s) := by
  simp [command, h]

end Sys2Proof.Machine
end

