-- ==== Sys2Proof/Laws/Memory.lean ====
section
/-! SUPPORT. The laws of MEM: a read returns the last write, and every write keeps the canonical form and the bounds. -/

namespace Sys2Proof.Machine

theorem Memory.lookup_write (m : Memory) (a : Nat) (v : Byte) (c : Nat) :
    (m.write a v).lookup c = if c = a then some v else m.lookup c := by
  induction m with
  | nil => simp [Memory.write, Memory.lookup, eq_comm]
  | cons e m ih =>
    obtain ⟨b, w⟩ := e
    simp only [Memory.write]
    split
    · simp [Memory.lookup, eq_comm]
    · split
      · subst_vars
        simp only [Memory.lookup, eq_comm]
        split <;> rfl
      · simp only [Memory.lookup, ih]
        split <;> split <;> simp_all

@[simp] theorem Memory.lookup_write_self (m : Memory) (a : Nat) (v : Byte) : (m.write a v).lookup a = some v := by
  simp [Memory.lookup_write]

theorem Memory.lookup_write_of_ne (m : Memory) {a c : Nat} (v : Byte) (h : c ≠ a) :
    (m.write a v).lookup c = m.lookup c := by
  simp [Memory.lookup_write, h]

/-- What a sequence of writes leaves at an address: its element there, or what was there before. -/
theorem Memory.lookup_writeList (t : List Byte) (m : Memory) (d c : Nat) :
    (m.writeList d t).lookup c = if d ≤ c ∧ c < d + t.length then t[c - d]? else m.lookup c := by
  induction t generalizing m d with
  | nil => simp [Memory.writeList]
  | cons v vs ih =>
    simp only [Memory.writeList, ih, Memory.lookup_write, List.length_cons]
    by_cases h1 : d + 1 ≤ c ∧ c < d + 1 + vs.length
    · have h3 : c - d = (c - (d + 1)) + 1 := by omega
      rw [if_pos h1, if_pos (by omega), h3, List.getElem?_cons_succ]
    · rw [if_neg h1]
      by_cases h2 : c = d
      · subst h2
        simp
      · rw [if_neg h2, if_neg (by omega)]

/-- Every listed address satisfies a property that the old ones and the written one satisfy. -/
theorem Memory.forall_write {p : Nat → Prop} (m : Memory) (a : Nat) (v : Byte) (hm : ∀ c ∈ m, p c.1) (ha : p a) :
    ∀ c ∈ m.write a v, p c.1 := by
  induction m with
  | nil => simpa [Memory.write] using ha
  | cons e m ih =>
    obtain ⟨b, w⟩ := e
    simp only [List.forall_mem_cons] at hm
    simp only [Memory.write]
    split
    · simp only [List.forall_mem_cons]
      exact ⟨ha, hm⟩
    · split
      · simp only [List.forall_mem_cons]
        exact ⟨ha, hm.2⟩
      · simp only [List.forall_mem_cons]
        exact ⟨hm.1, ih hm.2⟩

theorem Memory.forall_writeList {p : Nat → Prop} (t : List Byte) (m : Memory) (d : Nat) (hm : ∀ c ∈ m, p c.1)
    (hd : ∀ a, d ≤ a → a < d + t.length → p a) : ∀ c ∈ m.writeList d t, p c.1 := by
  induction t generalizing m d with
  | nil => simpa [Memory.writeList] using hm
  | cons v vs ih =>
    simp only [List.length_cons] at hd
    exact ih (m.write d v) (d + 1) (m.forall_write d v hm (hd d (by omega) (by omega)))
      (fun a h1 h2 => hd a (by omega) (by omega))

/-- The canonical form says that the first address is below all others, and so on down the list. -/
theorem Memory.wf_cons (a : Nat) (v : Byte) (m : Memory) :
    Memory.wf ((a, v) :: m) = true ↔ (∀ c ∈ m, a < c.1) ∧ m.wf = true := by
  induction m generalizing a v with
  | nil => simp [Memory.wf]
  | cons e m ih =>
    obtain ⟨b, w⟩ := e
    simp only [Memory.wf, Bool.and_eq_true, decide_eq_true_eq, List.forall_mem_cons]
    constructor
    · rintro ⟨hab, hb⟩
      exact ⟨⟨hab, fun c hc => by have := ((ih b w).1 hb).1 c hc; omega⟩, hb⟩
    · rintro ⟨⟨hab, -⟩, hb⟩
      exact ⟨hab, hb⟩

/-- A write keeps the canonical form. -/
theorem Memory.wf_write (m : Memory) (a : Nat) (v : Byte) (h : m.wf = true) : (m.write a v).wf = true := by
  induction m with
  | nil => rfl
  | cons e m ih =>
    obtain ⟨b, w⟩ := e
    have hb := (Memory.wf_cons b w m).1 h
    simp only [Memory.write]
    split
    · rename_i hab
      simp only [Memory.wf, Bool.and_eq_true, decide_eq_true_eq]
      exact ⟨hab, h⟩
    · split
      · subst_vars
        exact (Memory.wf_cons _ v m).2 hb
      · exact (Memory.wf_cons b w _).2 ⟨Memory.forall_write m a v hb.1 (by omega), ih hb.2⟩

theorem Memory.wf_writeList (t : List Byte) (m : Memory) (d : Nat) (h : m.wf = true) : (m.writeList d t).wf = true := by
  induction t generalizing m d with
  | nil => exact h
  | cons v vs ih => exact ih _ _ (m.wf_write d v h)

end Sys2Proof.Machine
end

