-- ==== Sys2Proof/Laws/State.lean ====
section
/-! SUPPORT. One lemma per field of State for each update and shared operation, true by rfl. -/

namespace Sys2Proof.Machine

@[simp] theorem raise_config (e : ErrorClass) (s : State) : (raise e s).config = s.config := rfl
@[simp] theorem raise_status (e : ErrorClass) (s : State) : (raise e s).status = statusOfError e := rfl
@[simp] theorem raise_din (e : ErrorClass) (s : State) : (raise e s).din = s.din := rfl
@[simp] theorem raise_dout (e : ErrorClass) (s : State) : (raise e s).dout = s.dout := rfl
@[simp] theorem raise_src (e : ErrorClass) (s : State) : (raise e s).src = s.src := rfl
@[simp] theorem raise_len (e : ErrorClass) (s : State) : (raise e s).len = s.len := rfl
@[simp] theorem raise_dst (e : ErrorClass) (s : State) : (raise e s).dst = s.dst := rfl
@[simp] theorem raise_olen (e : ErrorClass) (s : State) : (raise e s).olen = s.olen := rfl
@[simp] theorem raise_mem (e : ErrorClass) (s : State) : (raise e s).mem = s.mem := rfl
@[simp] theorem raise_draws (e : ErrorClass) (s : State) : (raise e s).draws = s.draws := rfl
@[simp] theorem raise_pending (e : ErrorClass) (s : State) : (raise e s).pending = s.pending := rfl
@[simp] theorem raise_returned (e : ErrorClass) (s : State) : (raise e s).returned = s.returned := rfl

@[simp] theorem succeedGroup_config (out : Word) (cnt : Nat) (s : State) : (succeedGroup out cnt s).config = s.config := rfl
@[simp] theorem succeedGroup_status (out : Word) (cnt : Nat) (s : State) : (succeedGroup out cnt s).status = statusOk cnt := rfl
@[simp] theorem succeedGroup_din (out : Word) (cnt : Nat) (s : State) : (succeedGroup out cnt s).din = s.din := rfl
@[simp] theorem succeedGroup_dout (out : Word) (cnt : Nat) (s : State) : (succeedGroup out cnt s).dout = out := rfl
@[simp] theorem succeedGroup_src (out : Word) (cnt : Nat) (s : State) : (succeedGroup out cnt s).src = s.src := rfl
@[simp] theorem succeedGroup_len (out : Word) (cnt : Nat) (s : State) : (succeedGroup out cnt s).len = s.len := rfl
@[simp] theorem succeedGroup_dst (out : Word) (cnt : Nat) (s : State) : (succeedGroup out cnt s).dst = s.dst := rfl
@[simp] theorem succeedGroup_olen (out : Word) (cnt : Nat) (s : State) : (succeedGroup out cnt s).olen = s.olen := rfl
@[simp] theorem succeedGroup_mem (out : Word) (cnt : Nat) (s : State) : (succeedGroup out cnt s).mem = s.mem := rfl
@[simp] theorem succeedGroup_draws (out : Word) (cnt : Nat) (s : State) : (succeedGroup out cnt s).draws = s.draws := rfl
@[simp] theorem succeedGroup_pending (out : Word) (cnt : Nat) (s : State) : (succeedGroup out cnt s).pending = s.pending := rfl
@[simp] theorem succeedGroup_returned (out : Word) (cnt : Nat) (s : State) : (succeedGroup out cnt s).returned = s.returned := rfl

@[simp] theorem succeedStream_config (n : Nat) (s : State) : (succeedStream n s).config = s.config := rfl
@[simp] theorem succeedStream_status (n : Nat) (s : State) : (succeedStream n s).status = statusOk 0 := rfl
@[simp] theorem succeedStream_din (n : Nat) (s : State) : (succeedStream n s).din = s.din := rfl
@[simp] theorem succeedStream_dout (n : Nat) (s : State) : (succeedStream n s).dout = s.dout := rfl
@[simp] theorem succeedStream_src (n : Nat) (s : State) : (succeedStream n s).src = s.src := rfl
@[simp] theorem succeedStream_len (n : Nat) (s : State) : (succeedStream n s).len = s.len := rfl
@[simp] theorem succeedStream_dst (n : Nat) (s : State) : (succeedStream n s).dst = s.dst := rfl
@[simp] theorem succeedStream_olen (n : Nat) (s : State) : (succeedStream n s).olen = BitVec.ofNat 32 n := rfl
@[simp] theorem succeedStream_mem (n : Nat) (s : State) : (succeedStream n s).mem = s.mem := rfl
@[simp] theorem succeedStream_draws (n : Nat) (s : State) : (succeedStream n s).draws = s.draws := rfl
@[simp] theorem succeedStream_pending (n : Nat) (s : State) : (succeedStream n s).pending = s.pending := rfl
@[simp] theorem succeedStream_returned (n : Nat) (s : State) : (succeedStream n s).returned = s.returned := rfl

@[simp] theorem writeByte_config (s : State) (a : Nat) (v : Byte) : (s.writeByte a v).config = s.config := rfl
@[simp] theorem writeByte_status (s : State) (a : Nat) (v : Byte) : (s.writeByte a v).status = s.status := rfl
@[simp] theorem writeByte_din (s : State) (a : Nat) (v : Byte) : (s.writeByte a v).din = s.din := rfl
@[simp] theorem writeByte_dout (s : State) (a : Nat) (v : Byte) : (s.writeByte a v).dout = s.dout := rfl
@[simp] theorem writeByte_src (s : State) (a : Nat) (v : Byte) : (s.writeByte a v).src = s.src := rfl
@[simp] theorem writeByte_len (s : State) (a : Nat) (v : Byte) : (s.writeByte a v).len = s.len := rfl
@[simp] theorem writeByte_dst (s : State) (a : Nat) (v : Byte) : (s.writeByte a v).dst = s.dst := rfl
@[simp] theorem writeByte_olen (s : State) (a : Nat) (v : Byte) : (s.writeByte a v).olen = s.olen := rfl
@[simp] theorem writeByte_mem (s : State) (a : Nat) (v : Byte) : (s.writeByte a v).mem = s.mem.write a v := rfl
@[simp] theorem writeByte_draws (s : State) (a : Nat) (v : Byte) : (s.writeByte a v).draws = s.draws := rfl
@[simp] theorem writeByte_pending (s : State) (a : Nat) (v : Byte) : (s.writeByte a v).pending = s.pending := rfl
@[simp] theorem writeByte_returned (s : State) (a : Nat) (v : Byte) : (s.writeByte a v).returned = s.returned := rfl

@[simp] theorem writeRange_config (s : State) (d : Nat) (t : List Byte) : (s.writeRange d t).config = s.config := rfl
@[simp] theorem writeRange_status (s : State) (d : Nat) (t : List Byte) : (s.writeRange d t).status = s.status := rfl
@[simp] theorem writeRange_din (s : State) (d : Nat) (t : List Byte) : (s.writeRange d t).din = s.din := rfl
@[simp] theorem writeRange_dout (s : State) (d : Nat) (t : List Byte) : (s.writeRange d t).dout = s.dout := rfl
@[simp] theorem writeRange_src (s : State) (d : Nat) (t : List Byte) : (s.writeRange d t).src = s.src := rfl
@[simp] theorem writeRange_len (s : State) (d : Nat) (t : List Byte) : (s.writeRange d t).len = s.len := rfl
@[simp] theorem writeRange_dst (s : State) (d : Nat) (t : List Byte) : (s.writeRange d t).dst = s.dst := rfl
@[simp] theorem writeRange_olen (s : State) (d : Nat) (t : List Byte) : (s.writeRange d t).olen = s.olen := rfl
@[simp] theorem writeRange_mem (s : State) (d : Nat) (t : List Byte) : (s.writeRange d t).mem = s.mem.writeList d t := rfl
@[simp] theorem writeRange_draws (s : State) (d : Nat) (t : List Byte) : (s.writeRange d t).draws = s.draws := rfl
@[simp] theorem writeRange_pending (s : State) (d : Nat) (t : List Byte) : (s.writeRange d t).pending = s.pending := rfl
@[simp] theorem writeRange_returned (s : State) (d : Nat) (t : List Byte) : (s.writeRange d t).returned = s.returned := rfl

@[simp] theorem resetBlock_config (s : State) : (resetBlock s).config = s.config := rfl
@[simp] theorem resetBlock_status (s : State) : (resetBlock s).status = 0x00000000#32 := rfl
@[simp] theorem resetBlock_din (s : State) : (resetBlock s).din = 0x00000000#32 := rfl
@[simp] theorem resetBlock_dout (s : State) : (resetBlock s).dout = 0x00000000#32 := rfl
@[simp] theorem resetBlock_src (s : State) : (resetBlock s).src = 0x00000000#32 := rfl
@[simp] theorem resetBlock_len (s : State) : (resetBlock s).len = 0x00000000#32 := rfl
@[simp] theorem resetBlock_dst (s : State) : (resetBlock s).dst = 0x00000000#32 := rfl
@[simp] theorem resetBlock_olen (s : State) : (resetBlock s).olen = 0x00000000#32 := rfl
@[simp] theorem resetBlock_mem (s : State) : (resetBlock s).mem = [] := rfl
@[simp] theorem resetBlock_draws (s : State) : (resetBlock s).draws = s.draws + 1 := rfl
@[simp] theorem resetBlock_pending (s : State) : (resetBlock s).pending = s.pending := rfl
@[simp] theorem resetBlock_returned (s : State) : (resetBlock s).returned = s.returned := rfl

@[simp] theorem issue_config (s : State) (actions : List HostAction) : (s.issue actions).config = s.config := rfl
@[simp] theorem issue_status (s : State) (actions : List HostAction) : (s.issue actions).status = s.status := rfl
@[simp] theorem issue_din (s : State) (actions : List HostAction) : (s.issue actions).din = s.din := rfl
@[simp] theorem issue_dout (s : State) (actions : List HostAction) : (s.issue actions).dout = s.dout := rfl
@[simp] theorem issue_src (s : State) (actions : List HostAction) : (s.issue actions).src = s.src := rfl
@[simp] theorem issue_len (s : State) (actions : List HostAction) : (s.issue actions).len = s.len := rfl
@[simp] theorem issue_dst (s : State) (actions : List HostAction) : (s.issue actions).dst = s.dst := rfl
@[simp] theorem issue_olen (s : State) (actions : List HostAction) : (s.issue actions).olen = s.olen := rfl
@[simp] theorem issue_mem (s : State) (actions : List HostAction) : (s.issue actions).mem = s.mem := rfl
@[simp] theorem issue_draws (s : State) (actions : List HostAction) : (s.issue actions).draws = s.draws := rfl
@[simp] theorem issue_pending (s : State) (actions : List HostAction) : (s.issue actions).pending = s.pending ++ actions := rfl
@[simp] theorem issue_returned (s : State) (actions : List HostAction) : (s.issue actions).returned = s.returned := rfl

@[simp] theorem withFetchWord_config (s : State) (nbits w : Nat) : (s.withFetchWord nbits w).config = s.config := rfl
@[simp] theorem withFetchWord_status (s : State) (nbits w : Nat) : (s.withFetchWord nbits w).status = s.status := rfl
@[simp] theorem withFetchWord_din (s : State) (nbits w : Nat) : (s.withFetchWord nbits w).din = s.din := rfl
@[simp] theorem withFetchWord_dout (s : State) (nbits w : Nat) : (s.withFetchWord nbits w).dout = s.dout := rfl
@[simp] theorem withFetchWord_src (s : State) (nbits w : Nat) : (s.withFetchWord nbits w).src = s.src := rfl
@[simp] theorem withFetchWord_len (s : State) (nbits w : Nat) : (s.withFetchWord nbits w).len = s.len := rfl
@[simp] theorem withFetchWord_dst (s : State) (nbits w : Nat) : (s.withFetchWord nbits w).dst = s.dst := rfl
@[simp] theorem withFetchWord_olen (s : State) (nbits w : Nat) : (s.withFetchWord nbits w).olen = s.olen := rfl
@[simp] theorem withFetchWord_mem (s : State) (nbits w : Nat) : (s.withFetchWord nbits w).mem = s.mem := rfl
@[simp] theorem withFetchWord_draws (s : State) (nbits w : Nat) : (s.withFetchWord nbits w).draws = s.draws := rfl
@[simp] theorem withFetchWord_pending (s : State) (nbits w : Nat) : (s.withFetchWord nbits w).pending = actionCmd (tableWord nbits w) :: s.pending := rfl
@[simp] theorem withFetchWord_returned (s : State) (nbits w : Nat) : (s.withFetchWord nbits w).returned = s.returned := rfl

/-- A command's range checks read the parameter alone. -/
theorem insideMem_eq (s : State) (a n : Nat) : s.insideMem a n = decide (a + n ≤ s.config.memSize) := rfl

@[simp] theorem insideMem_iff (s : State) (a n : Nat) : s.insideMem a n = true ↔ a + n ≤ s.config.memSize := by
  simp [State.insideMem]

theorem readByte_congr {s t : State} (hm : t.mem = s.mem) (hd : t.draws = s.draws) (a : Nat) :
    t.readByte a = s.readByte a := by
  simp [State.readByte, hm, hd]

theorem readRange_congr {s t : State} (hm : t.mem = s.mem) (hd : t.draws = s.draws) (a n : Nat) :
    t.readRange a n = s.readRange a n := by
  simp [State.readRange, readByte_congr hm hd]

end Sys2Proof.Machine
end

