-- ==== Sys2Proof/Laws/Ops.lean ====
section
/-! SUPPORT. What each shared operation on MEM does, said once through the read of one byte. -/

namespace Sys2Proof.Machine

@[simp] theorem readByte_raise (e : ErrorClass) (s : State) (a : Nat) : (raise e s).readByte a = s.readByte a := rfl

@[simp] theorem readByte_succeedGroup (out : Word) (cnt : Nat) (s : State) (a : Nat) :
    (succeedGroup out cnt s).readByte a = s.readByte a := rfl

@[simp] theorem readByte_succeedStream (n : Nat) (s : State) (a : Nat) :
    (succeedStream n s).readByte a = s.readByte a := rfl

theorem readByte_writeByte (s : State) (a : Nat) (v : Byte) (c : Nat) :
    (s.writeByte a v).readByte c = if c = a then v else s.readByte c := by
  simp only [State.readByte, writeByte_mem, writeByte_draws, Memory.lookup_write]
  split <;> rfl

theorem readByte_writeRange_inside (s : State) (d : Nat) (t : List Byte) (k : Nat) (h : k < t.length) :
    (s.writeRange d t).readByte (d + k) = t[k] := by
  simp [State.readByte, Memory.lookup_writeList, h]

theorem readByte_writeRange_outside (s : State) (d : Nat) (t : List Byte) (a : Nat) (h : a < d ∨ d + t.length ≤ a) :
    (s.writeRange d t).readByte a = s.readByte a := by
  have hn : ¬ (d ≤ a ∧ a < d + t.length) := by omega
  simp [State.readByte, Memory.lookup_writeList, hn]

@[simp] theorem readRange_length (s : State) (a n : Nat) : (s.readRange a n).length = n := by
  simp [State.readRange]

@[simp] theorem readRange_getElem (s : State) (a n k : Nat) (h : k < (s.readRange a n).length) :
    (s.readRange a n)[k] = s.readByte (a + k) := by
  simp [State.readRange]

/-- A range reads the same where its bytes do. -/
theorem readRange_ext {s t : State} {a n : Nat} (h : ∀ k < n, t.readByte (a + k) = s.readByte (a + k)) :
    t.readRange a n = s.readRange a n := by
  simp only [State.readRange]
  exact List.map_congr_left (fun k hk => h k (List.mem_range.1 hk))

/-- A range written outside another leaves that one's bytes. -/
theorem readRange_writeRange_disjoint (s : State) (a n d : Nat) (t : List Byte)
    (h : overlaps a n d t.length = false) : (s.writeRange d t).readRange a n = s.readRange a n := by
  refine readRange_ext (fun k hk => ?_)
  by_cases ht : t.length = 0
  · exact readByte_writeRange_outside s d t _ (by omega)
  · refine readByte_writeRange_outside s d t _ ?_
    simp only [overlaps, Bool.and_eq_false_iff, decide_eq_false_iff_not] at h
    omega

/-- A written range reads back as what was written. -/
theorem readRange_writeRange (s : State) (d : Nat) (t : List Byte) :
    (s.writeRange d t).readRange d t.length = t := by
  refine List.ext_getElem (by simp) (fun k h1 h2 => ?_)
  simpa using readByte_writeRange_inside s d t k h2

@[simp] theorem overlaps_eq_true (a n d m : Nat) :
    overlaps a n d m = true ↔ 0 < n ∧ 0 < m ∧ a < d + m ∧ d < a + n := by
  simp [overlaps, and_assoc]

/-- A step performs the oldest pending host action. -/
theorem step_of_pending {s : State} {a : HostAction} {rest : List HostAction} (h : s.pending = a :: rest) :
    step s = perform a { s with pending := rest } := by
  simp [step, h]

end Sys2Proof.Machine
end

