-- ==== Sys2Proof/Laws/Exec.lean ====
section
/-! SUPPORT. What a command and a host action can do, said once: if it answers a next state, one of these cases holds. -/

namespace Sys2Proof.Machine

open Sys2Proof.Safety

/-- The input of a stream command, as its meaning reads it. -/
theorem input_eq (s : State) : input s = s.readRange s.src.toNat s.len.toNat := rfl

@[simp] theorem input_length (s : State) : (input s).length = s.len.toNat := readRange_length s _ _

/-- A lane above every bit of a zero-extended value reads 0. -/
theorem lane_setWidth_of_le {n : Nat} (x : BitVec n) (k : Nat) (h : n ≤ 8 * k) : lane k (x.setWidth 32) = 0#8 := by
  refine BitVec.eq_of_getElem_eq (fun j hj => ?_)
  rw [lane_getElem _ _ _ hj, BitVec.getLsbD_setWidth, BitVec.getLsbD_of_ge x _ (by omega)]
  simp

/-- DECG's result word has 0 in the lanes at or above the block's write count (R82). -/
theorem lane_blockWord_of_le (q : Quad) (k : Nat) (h : blockCount q ≤ k) (_ : k < 4) :
    lane k (blockWord q) = 0#8 := by
  refine BitVec.eq_of_getElem_eq (fun j hj => ?_)
  have hpos := blockCount_pos q
  have hle := blockCount_le q
  rw [lane_getElem _ _ _ hj]
  simp only [blockWord, BitVec.getLsbD_or, BitVec.getLsbD_setWidth]
  rw [BitVec.getLsbD_of_ge (blockTriple q).o0 (8 * k + j) (by omega)]
  have hc : blockCount q = 1 ∨ blockCount q = 2 ∨ blockCount q = 3 := by omega
  rcases hc with hc | hc | hc
  · simp [hc]
  · rw [hc, if_pos (by omega), if_neg (by omega), BitVec.getLsbD_shiftLeft, BitVec.getLsbD_setWidth,
      BitVec.getLsbD_of_ge (blockTriple q).o1 _ (by omega)]
    simp
  · rw [hc, if_pos (by omega), if_pos rfl, BitVec.getLsbD_shiftLeft, BitVec.getLsbD_setWidth,
      BitVec.getLsbD_of_ge (blockTriple q).o1 _ (by omega), BitVec.getLsbD_shiftLeft, BitVec.getLsbD_setWidth,
      BitVec.getLsbD_of_ge (blockTriple q).o2 _ (by omega)]
    simp

/-- The outcomes of a command: an error, a group command's result, CLR, or a stream command's result. -/
inductive ExecResult (s : State) : Instr → State → Prop where
  | error {i : Instr} (e : ErrorClass) : ExecResult s i (raise e s)
  | clr : ExecResult s .clr { s with status := statusOk 0 }
  | group {i : Instr} (out : Word) (cnt : Nat) : isGroup i = true → 1 ≤ cnt → cnt ≤ 4 →
      (∀ k, cnt ≤ k → k < 4 → lane k out = 0#8) → ExecResult s i (succeedGroup out cnt s)
  | check : s.src.toNat + s.len.toNat ≤ s.config.memSize → valid (input s) = true →
      ExecResult s .check (succeedStream (decLength (input s)) s)
  | encode : s.src.toNat + s.len.toNat ≤ s.config.memSize →
      s.dst.toNat + encLength s.len.toNat ≤ s.config.memSize →
      overlaps s.src.toNat s.len.toNat s.dst.toNat (encLength s.len.toNat) = false →
      ExecResult s .encode (succeedStream (encLength s.len.toNat) (s.writeRange s.dst.toNat (enc (input s))))
  | decode : s.src.toNat + s.len.toNat ≤ s.config.memSize → valid (input s) = true →
      s.dst.toNat + decLength (input s) ≤ s.config.memSize →
      overlaps s.src.toNat s.len.toNat s.dst.toNat (decLength (input s)) = false →
      ExecResult s .decode (succeedStream (decLength (input s)) (s.writeRange s.dst.toNat (dec (input s))))

theorem exec_cases {i : Instr} {s t : State} (h : exec i s = .next t) : ExecResult s i t := by
  cases i with
  | clr => cases h; exact .clr
  | enc3 => cases h; exact .group _ 4 rfl (by omega) (by omega) (by omega)
  | enc2 => cases h; exact .group _ 4 rfl (by omega) (by omega) (by omega)
  | enc1 => cases h; exact .group _ 4 rfl (by omega) (by omega) (by omega)
  | alut => cases h; exact .group _ 1 rfl (by omega) (by omega) (fun k hk _ => lane_setWidth_of_le _ k (by omega))
  | rlut =>
    simp only [exec, execRlut] at h
    split at h
    · cases h; exact .group _ 1 rfl (by omega) (by omega) (fun k hk _ => lane_setWidth_of_le _ k (by omega))
    · cases h; exact .error _
  | decg =>
    simp only [exec, execDecg] at h
    split at h
    · cases h
      exact .group _ _ rfl (blockCount_pos _) (Nat.le_succ_of_le (blockCount_le _)) (lane_blockWord_of_le _)
    · cases h; exact .error _
  | check =>
    simp only [exec, execCheck] at h
    split at h
    · cases h; exact .error _
    · split at h
      · cases h; exact .error _
      · rename_i h1 h2
        cases h
        exact .check (by simpa [State.srcAddr, State.inLen] using h1)
          (by simpa [input_eq, State.srcAddr, State.inLen] using h2)
  | encode =>
    simp only [exec, execEncode] at h
    split at h
    · cases h; exact .error _
    · split at h
      · cases h; exact .error _
      · split at h
        · cases h; exact .error _
        · rename_i h1 h2 h3
          cases h
          exact .encode (by simpa [State.srcAddr, State.inLen] using h1)
            (by simpa [State.dstAddr, State.inLen] using h2) (Bool.not_eq_true _ ▸ h3)
  | decode =>
    simp only [exec, execDecode] at h
    split at h
    · cases h; exact .error _
    · split at h
      · cases h; exact .error _
      · split at h
        · cases h; exact .error _
        · split at h
          · cases h; exact .error _
          · rename_i h1 h2 h3 h4
            cases h
            exact .decode (by simpa [State.srcAddr, State.inLen] using h1)
              (by simpa [input_eq, State.srcAddr, State.inLen] using h2)
              (by simpa [input_eq, State.srcAddr, State.inLen, State.dstAddr] using h3) (Bool.not_eq_true _ ▸ h4)

/-- The outcomes of a host action that is not refused (R90 to R92, R114). -/
inductive PerformResult (s : State) : HostAction → State → Prop where
  | reset : PerformResult s .reset (resetBlock s)
  | command {w : Word} {t : State} : command w s = .next t → PerformResult s (actionCmd w) t
  | din (v : Word) : PerformResult s (actionWr .din v) { s with din := v }
  | src (v : Word) : PerformResult s (actionWr .src v) { s with src := v }
  | len (v : Word) : PerformResult s (actionWr .len v) { s with len := v }
  | dst (v : Word) : PerformResult s (actionWr .dst v) { s with dst := v }
  | read (r : Reg) (v : Word) : s.regValue r = some v →
      PerformResult s (actionRd r) { s with returned := s.returned ++ [.reg v] }
  | store {a : Nat} (v : Byte) : a < s.config.memSize → PerformResult s (actionMwr a v) (s.writeByte a v)
  | load {a : Nat} : a < s.config.memSize →
      PerformResult s (actionMrd a) { s with returned := s.returned ++ [.mem (s.readByte a)] }

theorem writeReg_cases {r : Reg} {v : Word} {s t : State} (h : writeReg r v s = .next t) :
    PerformResult s (actionWr r v) t := by
  cases r <;> first | exact .command h | (cases h; constructor) | cases h

theorem readReg_cases {r : Reg} {s t : State} (h : readReg r s = .next t) : PerformResult s (actionRd r) t := by
  unfold readReg at h
  split at h
  · rename_i v hv
    cases h
    exact .read r v hv
  · cases h

theorem perform_cases {a : HostAction} {s t : State} (h : perform a s = .next t) : PerformResult s a t := by
  cases a with
  | reset => cases h; exact .reset
  | bus tr =>
    obtain ⟨space, address, width, transfer⟩ := tr
    cases space with
    | reg =>
      simp only [perform, regAccess] at h
      split at h
      · cases h
      · split at h
        · cases h
        · rename_i hw ha
          cases hr : regAt address with
          | none => simp [hr] at h
          | some r =>
            have hw' : width = 32 := by omega
            subst hw'
            have ho := regOffset_of_regAt hr
            subst ho
            simp only [hr] at h
            cases transfer with
            | read => exact readReg_cases h
            | write v => exact writeReg_cases (by simpa using h)
    | mem =>
      simp only [perform, memAccess] at h
      split at h
      · cases h
      · split at h
        · cases h
        · rename_i hw ha
          have hw' : width = 8 := by omega
          subst hw'
          cases transfer with
          | read => cases h; exact .load (by omega)
          | write v =>
            have hv : s.writeByte address v = t := by simpa using h
            subst hv
            exact .store v (by omega)

end Sys2Proof.Machine
end

