-- ==== Sys2Proof/Laws/Flags.lean ====
section
/-! SUPPORT. The values commands write to STATUS, and what its fields read in them. -/

namespace Sys2Proof.Machine

@[simp] theorem statusOk_zero : statusOk 0 = 0x00000000#32 := by decide

@[simp] theorem statusOk_one : statusOk 1 = 0x00000010#32 := by decide

@[simp] theorem statusOk_two : statusOk 2 = 0x00000020#32 := by decide

@[simp] theorem statusOk_three : statusOk 3 = 0x00000030#32 := by decide

@[simp] theorem statusOk_four : statusOk 4 = 0x00000040#32 := by decide

/-- A command that succeeds with CNT at most 4 leaves a legal STATUS (R17). -/
theorem statusLegal_statusOk {cnt : Nat} (h : cnt ≤ 4) : statusLegal (statusOk cnt) = true := by
  have hc : cnt = 0 ∨ cnt = 1 ∨ cnt = 2 ∨ cnt = 3 ∨ cnt = 4 := by omega
  rcases hc with rfl | rfl | rfl | rfl | rfl <;> decide

/-- The codes of the error classes are legal (R17, R95). -/
theorem statusLegal_statusOfError (e : ErrorClass) : statusLegal (statusOfError e) = true := by
  cases e <;> decide

theorem statusCnt_statusOk {cnt : Nat} (h : cnt ≤ 4) : statusCnt (statusOk cnt) = cnt := by
  have hc : cnt = 0 ∨ cnt = 1 ∨ cnt = 2 ∨ cnt = 3 ∨ cnt = 4 := by omega
  rcases hc with rfl | rfl | rfl | rfl | rfl <;> decide

/-- An error leaves CNT = 0 (R17, R103). -/
@[simp] theorem statusCnt_statusOfError (e : ErrorClass) : statusCnt (statusOfError e) = 0 := by
  cases e <;> decide

/-- Success leaves the three error bits 0 (R104). -/
theorem statusOk_bits {cnt : Nat} (h : cnt ≤ 4) : statusFmt (statusOk cnt) = false ∧
    statusArg (statusOk cnt) = false ∧ statusOp (statusOk cnt) = false := by
  have hc : cnt = 0 ∨ cnt = 1 ∨ cnt = 2 ∨ cnt = 3 ∨ cnt = 4 := by omega
  rcases hc with rfl | rfl | rfl | rfl | rfl <;> decide

end Sys2Proof.Machine
end

