-- ==== Sys2Proof/Laws/PerInstr.lean ====
section
/-! SUPPORT. Per-instruction facts about commands as syntax: the word of each is well formed by 30_encoding.md R50 and R53. -/

/-- The word of a command has RSV = 0 and is a legal word (R50, R53). -/
def Sys2Proof.Laws.EncodesLegalWord.Statement (i : Sys2Proof.Instr) : Prop :=
  i.wf = true ∧ Sys2Proof.rsvField (Sys2Proof.encode i) = 0#24 ∧ Sys2Proof.legalWord (Sys2Proof.encode i) = true

namespace Sys2Proof.Laws.EncodesLegalWord

theorem clr : Statement .clr := by unfold Statement; decide
theorem enc3 : Statement .enc3 := by unfold Statement; decide
theorem enc2 : Statement .enc2 := by unfold Statement; decide
theorem enc1 : Statement .enc1 := by unfold Statement; decide
theorem decg : Statement .decg := by unfold Statement; decide
theorem alut : Statement .alut := by unfold Statement; decide
theorem rlut : Statement .rlut := by unfold Statement; decide
theorem encode : Statement .encode := by unfold Statement; decide
theorem decode : Statement .decode := by unfold Statement; decide
theorem check : Statement .check := by unfold Statement; decide

end Sys2Proof.Laws.EncodesLegalWord
end

