-- ==== Sys2Proof/Tests/Slice0.lean ====
section
/-! SUPPORT. The model's own tests: words written out from 30_encoding.md, results from the vectors of 95_test_vectors.md, an
ill-formed term for each check of WellFormed, and a witness for the hypotheses of each statement. -/

namespace Sys2Proof.Tests

open Sys2Proof.Machine Sys2Proof.Safety

/-- The state after a command, or the same state where it gives none. -/
def after (i : Instr) (s : State) : State :=
  match exec i s with
  | .next t => t
  | _ => s

/-- The state after a step, or the same state where it gives none. -/
def stepped (s : State) : State :=
  match step s with
  | .next t => t
  | _ => s

/-- A step is refused. -/
def refuses (s : State) : Bool :=
  match step s with
  | .refused _ => true
  | _ => false

/-- A state with a value in DIN, and values in DOUT and STATUS that show whether a command writes them. -/
def onDin (w : Word) : State := { State.reset with din := w, dout := 0xDEADBEEF#32, status := 0x00000004#32 }

/-- A state with bytes of MEM written at an address and the stream registers set; OLEN shows whether it is written. -/
def onMem (a : Nat) (t : List Byte) (src len dst : Word) : State :=
  { State.reset with mem := Memory.writeList [] a t, src := src, len := len, dst := dst, olen := 0x0000CAFE#32 }

/-- A state with host actions pending. -/
def onQueue (actions : List HostAction) : State := { State.reset with pending := actions }

/-- `foo`, `Zm9v`, `Zg==`, `AB=A` (95_test_vectors.md). -/
def foo : List Byte := [0x66#8, 0x6F#8, 0x6F#8]
def zm9v : List Byte := [0x5A#8, 0x6D#8, 0x39#8, 0x76#8]
def zgPad : List Byte := [0x5A#8, 0x67#8, 0x3D#8, 0x3D#8]
def abPadA : List Byte := [0x41#8, 0x42#8, 0x3D#8, 0x41#8]

/-! ## Decoding: the words of R52, written out -/

theorem test_decode_clr : decode 0b00000000000000000000000000000000#32 = .ok .clr := by rfl
theorem test_decode_enc3 : decode 0b00000000000000000000000000000001#32 = .ok .enc3 := by rfl
theorem test_decode_enc2 : decode 0b00000000000000000000000000000010#32 = .ok .enc2 := by rfl
theorem test_decode_enc1 : decode 0b00000000000000000000000000000011#32 = .ok .enc1 := by rfl
theorem test_decode_decg : decode 0b00000000000000000000000000000100#32 = .ok .decg := by rfl
theorem test_decode_alut : decode 0b00000000000000000000000000000101#32 = .ok .alut := by rfl
theorem test_decode_rlut : decode 0b00000000000000000000000000000110#32 = .ok .rlut := by rfl
theorem test_decode_encode : decode 0b00000000000000000000000000001000#32 = .ok .encode := by rfl
theorem test_decode_decode : decode 0b00000000000000000000000000001001#32 = .ok .decode := by rfl
theorem test_decode_check : decode 0b00000000000000000000000000001010#32 = .ok .check := by rfl

/-- Table 2.8: reserved words. -/
theorem test_decode_illegal : decode 0x00000007#32 = .error .opcodeUnassigned ∧
    decode 0x0000000B#32 = .error .opcodeUnassigned ∧ decode 0x000000FF#32 = .error .opcodeUnassigned ∧
    decode 0x00000101#32 = .error .reservedBitsSet ∧ decode 0x80000000#32 = .error .reservedBitsSet :=
  ⟨rfl, rfl, rfl, rfl, rfl⟩

theorem test_decodeTableWord : decodeTableWord 32 0xA = some .check ∧ decodeTableWord 32 0x7 = none := by decide

/-- The word withFetchWord supplies runs as the first command after reset. -/
theorem test_withFetchWord_check :
    step (State.reset.withFetchWord 32 0xA) = .next { State.reset with olen := 0#32, status := 0#32 } := by rfl

/-! ## WellFormed: each check refuses an ill-formed term -/

theorem test_instr_wf : Instr.wf .encode = true := by decide
theorem test_legalWord_refuses : legalWord 0x00000101#32 = false ∧ legalWord 0x00000007#32 = false ∧
    legalWord 0x0000000B#32 = false ∧ legalWord 0x0000000A#32 = true := by decide
theorem test_config_wf_refuses : Config.wf ⟨0⟩ = false ∧ Config.wf ⟨2 ^ 32 + 1⟩ = false ∧
    Config.wf ⟨1⟩ = true ∧ Config.wf ⟨2 ^ 32⟩ = true := by decide
theorem test_defined_refuses_register_accesses :
    HostAction.defined 64 (.bus ⟨.reg, 0x20, 32, .read⟩) = false ∧
    HostAction.defined 64 (.bus ⟨.reg, 0x08, 16, .read⟩) = false ∧
    HostAction.defined 64 (.bus ⟨.reg, 0x09, 32, .read⟩) = false ∧
    HostAction.defined 64 (actionWr .status 0#32) = false ∧ HostAction.defined 64 (actionRd .cmd) = false ∧
    HostAction.defined 64 (actionRd .status) = true := by decide
theorem test_defined_refuses_mem_accesses :
    HostAction.defined 64 (.bus ⟨.mem, 0, 32, .read⟩) = false ∧ HostAction.defined 64 (actionMrd 64) = false ∧
    HostAction.defined 64 (actionMwr 63 0x41#8) = true := by decide

/-! ## Commands: vectors of 95_test_vectors.md -/

/-- R87's example: STATUS cleared. -/
theorem test_clr : (after .clr (onDin 0#32)).status = 0x00000000#32 := by decide

/-- Table 2.1: bits 31:6 ignored. -/
theorem test_alut_ignores_high_bits : (after .alut (onDin 0xFFFFFFC0#32)).dout = 0x00000041#32 ∧
    (after .alut (onDin 0xFFFFFFC0#32)).status = 0x00000010#32 := by decide
/-- Table 2.1: index 62. -/
theorem test_alut_plus : (after .alut (onDin 0x0000003E#32)).dout = 0x0000002B#32 := by decide

/-- Table 2.2: the end of the lower-case range. -/
theorem test_rlut_z : (after .rlut (onDin 0x0000007A#32)).dout = 0x00000033#32 ∧
    (after .rlut (onDin 0x0000007A#32)).status = 0x00000010#32 := by decide
/-- Table 2.2: PAD is no alphabet character, and DOUT keeps its value. -/
theorem test_rlut_pad : (after .rlut (onDin 0x0000003D#32)).dout = 0xDEADBEEF#32 ∧
    (after .rlut (onDin 0x0000003D#32)).status = 0x00000001#32 := by decide

/-- Table 2.3: `Zm9v`, lane 3 ignored. -/
theorem test_enc3_foo : (after .enc3 (onDin 0xAB6F6F66#32)).dout = 0x76396D5A#32 ∧
    (after .enc3 (onDin 0xAB6F6F66#32)).status = 0x00000040#32 := by decide
/-- Table 2.3: `+/+/`. -/
theorem test_enc3_plus_slash : (after .enc3 (onDin 0x00BFFFFB#32)).dout = 0x2F2B2F2B#32 := by decide

/-- Table 2.3: `Zm8=`, lanes 2 and 3 ignored. -/
theorem test_enc2_fo : (after .enc2 (onDin 0xFFFF6F66#32)).dout = 0x3D386D5A#32 ∧
    (after .enc2 (onDin 0xFFFF6F66#32)).status = 0x00000040#32 := by decide
/-- Table 2.3: `+/A=`. -/
theorem test_enc2_plus_slash : (after .enc2 (onDin 0x0000F0FB#32)).dout = 0x3D412F2B#32 := by decide

/-- Table 2.3: `Zg==`, lanes 1 to 3 ignored. -/
theorem test_enc1_f : (after .enc1 (onDin 0xFFFFFF66#32)).dout = 0x3D3D675A#32 ∧
    (after .enc1 (onDin 0xFFFFFF66#32)).status = 0x00000040#32 := by decide
/-- Table 2.3: `/w==`. -/
theorem test_enc1_ff : (after .enc1 (onDin 0x000000FF#32)).dout = 0x3D3D772F#32 := by decide

/-- Table 2.5: `ABC=` gives two bytes, the discarded bits dropped. -/
theorem test_decg_abc : (after .decg (onDin 0x3D434241#32)).dout = 0x00001000#32 ∧
    (after .decg (onDin 0x3D434241#32)).status = 0x00000020#32 := by decide
/-- Table 2.5: `Zm=v`, PAD in position 2 with data in 3. -/
theorem test_decg_pad_inside : (after .decg (onDin 0x763D6D5A#32)).dout = 0xDEADBEEF#32 ∧
    (after .decg (onDin 0x763D6D5A#32)).status = 0x00000001#32 := by decide

/-- Table 2.4: `foob` gives `Zm9vYg==`. -/
theorem test_encode_foob :
    let t := after .encode (onMem 0 (foo ++ [0x62#8]) 0#32 4#32 16#32)
    t.readRange 16 8 = [0x5A#8, 0x6D#8, 0x39#8, 0x76#8, 0x59#8, 0x67#8, 0x3D#8, 0x3D#8] ∧ t.olen = 8#32 ∧
      t.status = 0#32 := by decide
/-- Table 2.4: touching ranges do not overlap, and overlapping ones are refused with ARG. -/
theorem test_encode_overlap : (after .encode (onMem 4 foo 4#32 3#32 0#32)).status = 0#32 ∧
    (after .encode (onMem 0 foo 0#32 3#32 2#32)).status = 0x00000002#32 ∧
    (after .encode (onMem 0 foo 0#32 3#32 2#32)).olen = 0x0000CAFE#32 := by decide

/-- Table 2.6: `Zm9vYg==` has 4 bytes. -/
theorem test_check_padded : (after .check (onMem 0 (zm9v ++ [0x59#8, 0x67#8, 0x3D#8, 0x3D#8]) 0#32 8#32 0#32)).olen =
    4#32 := by decide
/-- Table 2.6: length 3 is no valid string; OLEN keeps its value. -/
theorem test_check_ragged : (after .check (onMem 0 zm9v 0#32 3#32 0#32)).status = 0x00000001#32 ∧
    (after .check (onMem 0 zm9v 0#32 3#32 0#32)).olen = 0x0000CAFE#32 := by decide

/-- Table 2.7: output at the end of MEM. -/
theorem test_decode_at_end : (after .decode (onMem 0 zm9v 0#32 4#32 61#32)).readRange 61 3 = foo ∧
    (after .decode (onMem 0 zm9v 0#32 4#32 61#32)).olen = 3#32 := by decide
/-- Table 2.7: a padded block that is not final; and a format error before a bad DST. -/
theorem test_decode_format_error : (after .decode (onMem 0 (zgPad ++ zm9v) 0#32 8#32 16#32)).status = 0x00000001#32 ∧
    (after .decode (onMem 0 abPadA 0#32 4#32 62#32)).status = 0x00000001#32 := by decide

/-! ## Host actions and host programs -/

theorem test_illegal_word : (stepped (onQueue [actionCmd 0x00000101#32])).status = 0x00000004#32 := by decide
theorem test_read_returns : (stepped { onQueue [actionRd .olen] with olen := 8#32 }).returned = [.reg 8#32] := by decide
/-- The negative example of 95_test_vectors.md: `WR STATUS, 0` is refused. -/
theorem test_write_status_refused : refuses (onQueue [actionWr .status 0#32]) = true := by decide
theorem test_reset_action : (stepped { onDin 5#32 with pending := [.reset] }).din = 0#32 := by decide

/-- P1, P2 and P3 use these forms (R56, R57). -/
theorem test_assemble : assembleText "start: WR DIN, 0x006F6F66 ; foo\nMWRS 4, \"Zm\"\nDECODE 4, 2, 'A'\nCMD 0x101\nRESET\n" =
    some [actionWr .din 0x006F6F66#32, actionMwr 4 0x5A#8, actionMwr 5 0x6D#8, actionWr .src 4#32, actionWr .len 2#32,
      actionWr .dst 0x41#32, actionCmd 0x00000009#32, actionCmd 0x00000101#32, .reset] := by decide
theorem test_assemble_refuses_lower_case : assembleText "wr DIN, 1" = none := by decide

/-! ## Witnesses: concrete states and operands that meet the hypotheses of the statements -/

theorem test_witness_DecodeAndEncodeAgree : Instr.wf .check = true ∧ decode 0x0000000A#32 = .ok .check :=
  ⟨by decide, rfl⟩

theorem test_witness_IllegalWordsRaiseIllegalCommand :
    (onQueue [actionCmd 0x0000000B#32]).pending = actionCmd 0x0000000B#32 :: [] ∧
    decode 0x0000000B#32 = .error .opcodeUnassigned := ⟨rfl, rfl⟩

theorem test_witness_StepRunsTheDecodedCommand :
    (onQueue [actionCmd 0x00000001#32]).pending = actionCmd 0x00000001#32 :: [] ∧ decode 0x00000001#32 = .ok .enc3 :=
  ⟨rfl, rfl⟩

theorem test_witness_IdleBlockRetainsAllState : State.reset.pending = [] := rfl

theorem test_witness_AlphaHoldsTheStandardAlphabet : (25#6).toNat ≤ 25 ∧ (26 ≤ (26#6).toNat ∧ (51#6).toNat ≤ 51) ∧
    (52 ≤ (52#6).toNat ∧ (61#6).toNat ≤ 61) ∧ (62#6).toNat = 62 ∧ (63#6).toNat = 63 := by decide

theorem test_witness_RlutIsTheReverseOfAlpha : alpha 63#6 = 0x2F#8 ∧ ∀ i, alpha i ≠ 0x3D#8 := by decide

theorem test_witness_TablesAreInversesOnTheAlphabet : (rlut 0x7A#8).valid = true := by decide

theorem test_witness_RlutLooksUpTheIndex : (rlut ((onDin 0x5A#32).din.extractLsb 7 0)).valid = true ∧
    (rlut ((onDin 0x5B#32).din.extractLsb 7 0)).valid = false := by decide

/-- `Zm9v`, `Zm8=`, `Zg==` and `====`, one for each shape of the statement. -/
theorem test_witness_DecgDecodesOneBlock :
    ((rlut ((0x76396D5A#32).extractLsb 7 0)).valid = true ∧ (rlut ((0x76396D5A#32).extractLsb 15 8)).valid = true ∧
      (rlut ((0x76396D5A#32).extractLsb 23 16)).valid = true ∧ (rlut ((0x76396D5A#32).extractLsb 31 24)).valid = true) ∧
    ((rlut ((0x3D386D5A#32).extractLsb 23 16)).valid = true ∧ (0x3D386D5A#32).extractLsb 31 24 = 0x3D#8) ∧
    ((rlut ((0x3D3D675A#32).extractLsb 15 8)).valid = true ∧ (0x3D3D675A#32).extractLsb 23 16 = 0x3D#8 ∧
      (0x3D3D675A#32).extractLsb 31 24 = 0x3D#8) ∧
    (rlut ((0x3D3D3D3D#32).extractLsb 7 0)).valid = false := by decide

theorem test_witness_IgnoredDinBitsHaveNoEffect : isGroup .enc1 = true ∧
    0xFFFFFF66#32 &&& dinMask .enc1 = (onDin 0x00000066#32).din &&& dinMask .enc1 ∧
    exec .enc1 (onDin 0x00000066#32) = .next (after .enc1 (onDin 0x00000066#32)) := ⟨rfl, by decide, rfl⟩

theorem test_witness_EncMapsGroupsThenTheRemainder : 3 * 0 + 2 < foo.length ∧ [0x66#8].length = 3 * 0 + 1 ∧
    [0x66#8, 0x6F#8].length = 3 * 0 + 2 ∧ foo.length = 3 * 1 := by decide

theorem test_witness_EncPaddingLaw : (enc [0x66#8])[3]? = some pad ∧ (enc [0x66#8, 0x6F#8])[3]? = some pad := by decide

/-- The hypothesis of the statements about valid strings: `Zg==`, and the empty string. -/
theorem test_witness_valid_strings : valid zgPad = true ∧ valid [] = true ∧ 0 < zgPad.length ∧
    ([] : List Byte).length = 0 ∧ 4 * 1 + 3 < (zm9v ++ zgPad).length ∧ valid (zm9v ++ zgPad) = true := by decide

theorem test_witness_PadStandsOnlyAtTheEndOfAValidString : valid zgPad = true ∧ 1 < zgPad.length ∧
    zgPad[1]? ≠ some pad ∧ zgPad[2]? = some pad := by decide

/-- `Zm8=` and `Zg==`. -/
theorem test_witness_PaddingIndexIsUnobservable : vgroup ⟨0x5A#8, 0x6D#8, 0x38#8, 0x3D#8⟩ = true ∧
    vgroup ⟨0x5A#8, 0x67#8, 0x3D#8, 0x3D#8⟩ = true := by decide

/-- `Zg==` beside `Zh==`, and `Zm8=` beside `Zm9=`. -/
theorem test_witness_DiscardedBitsAreAcceptedAndDropped :
    (valid ([] ++ [0x5A#8, 0x67#8, pad, pad]) = true ∧ isAlpha 0x68#8 = true ∧
      (rlut 0x68#8).idx >>> 4 = (rlut 0x67#8).idx >>> 4) ∧
    (valid ([] ++ [0x5A#8, 0x6D#8, 0x38#8, pad]) = true ∧ isAlpha 0x39#8 = true ∧ 0x38#8 ≠ pad ∧
      (rlut 0x39#8).idx >>> 2 = (rlut 0x38#8).idx >>> 2) := by decide

/-- Table 2.4: input past MEM, output past MEM, overlap, and output ending exactly at MEM's end. -/
theorem test_witness_EncodeEncodesABuffer : 64 < 62 + 3 ∧ (0 + 3 ≤ 64 ∧ 64 < 61 + (3 + 2) / 3 * 4) ∧
    (0 + 3 ≤ 64 ∧ 2 + (3 + 2) / 3 * 4 ≤ 64 ∧ 0 < 3 ∧ 0 < (3 + 2) / 3 * 4 ∧ 0 < 2 + (3 + 2) / 3 * 4 ∧ 2 < 0 + 3) ∧
    (0 + 3 ≤ 64 ∧ 60 + (3 + 2) / 3 * 4 ≤ 64 ∧ ¬ (0 < 3 ∧ 0 < (3 + 2) / 3 * 4 ∧ 0 < 60 + (3 + 2) / 3 * 4 ∧ 60 < 0 + 3)) ∧
    (onMem 0 foo 0#32 3#32 60#32).src.toNat = 0 ∧ (onMem 0 foo 0#32 3#32 60#32).len.toNat = 3 ∧
    (onMem 0 foo 0#32 3#32 60#32).dst.toNat = 60 ∧ (onMem 0 foo 0#32 3#32 60#32).config.memSize = 64 := by decide

/-- The string `Zg==` matches the regular expression. -/
theorem test_witness_grammar : Grammar (input (onMem 0 zgPad 0#32 4#32 62#32)) :=
  ⟨[], zgPad, .none, .two rfl rfl, rfl⟩

/-- The string `A` does not. -/
theorem test_witness_not_grammar : ¬ Grammar (input (onMem 0 [0x41#8] 0#32 1#32 16#32)) := by
  have h1 : input (onMem 0 [0x41#8] 0#32 1#32 16#32) = [0x41#8] := rfl
  rw [h1]
  rintro ⟨u, v, hu, hv, h⟩
  cases hu <;> cases hv <;> simp at h

/-- Table 2.6: `Zm9v` at 61 runs past MEM; `A` and `Zg==` do not. -/
theorem test_witness_CheckValidatesAString : 64 < (61#32).toNat + (4#32).toNat ∧
    (onMem 0 [0x41#8] 0#32 1#32 16#32).src.toNat + (onMem 0 [0x41#8] 0#32 1#32 16#32).len.toNat ≤
      (onMem 0 [0x41#8] 0#32 1#32 16#32).config.memSize ∧
    (onMem 0 zgPad 0#32 4#32 62#32).src.toNat + (onMem 0 zgPad 0#32 4#32 62#32).len.toNat ≤
      (onMem 0 zgPad 0#32 4#32 62#32).config.memSize := by decide

/-- Table 2.7: `Zg==` has one byte: DST = 64 is past MEM, 3 overlaps, 63 ends at MEM's end, 4 touches. -/
theorem test_witness_DecodeDecodesAString :
    4 / 4 * 3 - pads (input (onMem 0 zgPad 0#32 4#32 62#32)) = 1 ∧ (64 < 64 + 1) ∧
    (3 + 1 ≤ 64 ∧ 0 < 4 ∧ 0 < 1 ∧ 0 < 3 + 1 ∧ 3 < 0 + 4) ∧ (63 + 1 ≤ 64 ∧ ¬ (63 < 0 + 4)) ∧ ¬ (4 < 0 + 4) := by decide

theorem test_witness_OutputLengthFitsOlen : State.reset.config.wf = true ∧
    (after .encode State.reset).status = 0x00000000#32 ∧ exec .encode State.reset = .next (after .encode State.reset) ∧
    (after .decode State.reset).status = 0x00000000#32 ∧ exec .decode State.reset = .next (after .decode State.reset) ∧
    (after .check State.reset).status = 0x00000000#32 ∧ exec .check State.reset = .next (after .check State.reset) :=
  ⟨by decide, rfl, rfl, rfl, rfl, rfl, rfl⟩

theorem test_witness_EncodeThenDecodeRestoresTheBuffer :
    let s := onMem 0 foo 0#32 3#32 16#32
    let t := after .encode s
    let r := { t with src := s.dst, len := t.olen, dst := 32#32 }
    s.config.wf = true ∧ exec .encode s = .next t ∧ t.status = 0x00000000#32 ∧
      exec .decode r = .next (after .decode r) ∧ (after .decode r).status = 0x00000000#32 :=
  ⟨by decide, rfl, by decide, rfl, by decide⟩

/-- DECODE succeeding on `Zg==`; both reporting a format error on `A`. -/
theorem test_witness_CheckPredictsDecode :
    (exec .check (onMem 0 zgPad 0#32 4#32 62#32) = .next (after .check (onMem 0 zgPad 0#32 4#32 62#32)) ∧
      exec .decode (onMem 0 zgPad 0#32 4#32 62#32) = .next (after .decode (onMem 0 zgPad 0#32 4#32 62#32)) ∧
      (after .decode (onMem 0 zgPad 0#32 4#32 62#32)).status = 0x00000000#32) ∧
    (after .check (onMem 0 [0x41#8] 0#32 1#32 16#32)).status = 0x00000001#32 :=
  ⟨⟨rfl, rfl, by decide⟩, by decide⟩

theorem test_witness_StreamEncodeAgreesWithTheGroupEncoders_three :
    let s := { onMem 0 foo 0#32 3#32 16#32 with din := 0x006F6F66#32 }
    exec .encode s = .next (after .encode s) ∧ (after .encode s).status = 0x00000000#32 ∧
      (∀ k < s.len.toNat, lane k s.din = s.readByte (s.src.toNat + k)) ∧ s.len = 3#32 :=
  ⟨rfl, by decide, by decide, rfl⟩

theorem test_witness_StreamEncodeAgreesWithTheGroupEncoders_two_and_one :
    let s := { onMem 0 foo 0#32 2#32 16#32 with din := 0x006F6F66#32 }
    let r := { onMem 0 foo 0#32 1#32 16#32 with din := 0x006F6F66#32 }
    ((after .encode s).status = 0x00000000#32 ∧ (∀ k < s.len.toNat, lane k s.din = s.readByte (s.src.toNat + k))) ∧
    ((after .encode r).status = 0x00000000#32 ∧ (∀ k < r.len.toNat, lane k r.din = r.readByte (r.src.toNat + k))) := by
  decide

theorem test_witness_StreamOutputDependsOnItsInputOnly :
    let s := onMem 0 foo 0#32 3#32 16#32
    let s' := { onMem 0 (foo ++ [0x00#8]) 0#32 3#32 16#32 with din := 7#32 }
    isStream .encode = true ∧ s'.config = s.config ∧ s'.src = s.src ∧ s'.len = s.len ∧ s'.dst = s.dst ∧
      (∀ k < s.len.toNat, s'.readByte (s.src.toNat + k) = s.readByte (s.src.toNat + k)) ∧
      exec .encode s = .next (after .encode s) ∧ exec .encode s' = .next (after .encode s') ∧
      (after .encode s).status = 0x00000000#32 :=
  ⟨rfl, rfl, rfl, rfl, rfl, by decide, rfl, rfl, by decide⟩

theorem test_witness_frames : isGroup .rlut = true ∧ exec .rlut (onDin 0x3D#32) = .next (after .rlut (onDin 0x3D#32)) ∧
    reportsError (after .rlut (onDin 0x3D#32)).status = true ∧
    isStream .decode = true ∧
    exec .decode (onMem 0 abPadA 0#32 4#32 62#32) = .next (after .decode (onMem 0 abPadA 0#32 4#32 62#32)) ∧
    reportsError (after .decode (onMem 0 abPadA 0#32 4#32 62#32)).status = true :=
  ⟨rfl, rfl, by decide, rfl, rfl, by decide⟩

/-- A store at the boundary of the output range and addresses on both sides of it. -/
theorem test_witness_StreamCommandsWriteOnlyTheirOutput :
    let s := onMem 0 foo 0#32 3#32 16#32
    exec .encode s = .next (after .encode s) ∧ 15 < s.dst.toNat ∧ s.dst.toNat + encLength s.len.toNat ≤ 20 :=
  ⟨rfl, by decide, by decide⟩

theorem test_witness_RegistersKeepTheirValuesAcrossCommands :
    (command 0x00000001#32 (onDin 0#32) = .next (after .enc3 (onDin 0#32)) ∧
      (after .enc3 (onDin 0#32)).dout ≠ (onDin 0#32).dout) ∧
    (command 0x00000008#32 (onMem 0 foo 0#32 3#32 16#32) = .next (after .encode (onMem 0 foo 0#32 3#32 16#32)) ∧
      (after .encode (onMem 0 foo 0#32 3#32 16#32)).olen ≠ (onMem 0 foo 0#32 3#32 16#32).olen) ∧
    (actionWr .din 5#32 ≠ .reset ∧
      perform (actionWr .din 5#32) State.reset = .next { State.reset with din := 5#32 }) :=
  ⟨⟨rfl, by decide⟩, ⟨rfl, by decide⟩, by decide, rfl⟩

theorem test_witness_RegistersKeepTheirValuesAcrossCommands_not_a_command : ∀ w, actionWr .din 5#32 ≠ actionCmd w := by
  intro w h
  simp [actionWr, actionCmd, regOffset] at h

theorem test_witness_ErrorsWriteStatusOnly : command 0x00000007#32 (onDin 0#32) =
    .next { onDin 0#32 with status := 0x00000004#32 } ∧ reportsError 0x00000004#32 = true := ⟨rfl, by decide⟩

theorem test_witness_EachCommandRaisesOnlyItsClasses : exec .check (onMem 0 zm9v 61#32 4#32 0#32) =
    .next (after .check (onMem 0 zm9v 61#32 4#32 0#32)) ∧
    statusArg (after .check (onMem 0 zm9v 61#32 4#32 0#32)).status = true ∧
    statusFmt (after .decg (onDin 0x3D3D3D3D#32)).status = true := ⟨rfl, by decide, by decide⟩

/-- An input past MEM; an invalid string inside MEM with a bad DST; then a bad DST and an overlap alone. -/
theorem test_witness_TheFirstErrorInOrderIsReported :
    (isStream .check = true ∧ 64 < (onMem 0 zm9v 61#32 4#32 0#32).src.toNat + (onMem 0 zm9v 61#32 4#32 0#32).len.toNat) ∧
    valid (input (onMem 0 abPadA 0#32 4#32 62#32)) = false ∧
    64 < (onMem 0 foo 0#32 3#32 61#32).dst.toNat + encLength (onMem 0 foo 0#32 3#32 61#32).len.toNat ∧
    overlaps 0 3 2 (encLength 3) = true ∧
    (valid (input (onMem 0 zm9v 0#32 4#32 62#32)) = true ∧
      64 < (onMem 0 zm9v 0#32 4#32 62#32).dst.toNat + decLength (input (onMem 0 zm9v 0#32 4#32 62#32))) ∧
    overlaps 0 4 2 (decLength (input (onMem 0 zm9v 0#32 4#32 2#32))) = true := by decide

theorem test_witness_host_actions :
    (onQueue [actionWr .cmd 0x00000007#32]).pending = actionWr .cmd 0x00000007#32 :: [] ∧
    decode 0x00000007#32 = .error .opcodeUnassigned ∧
    (onQueue [actionRd .cmd]).pending = actionRd .cmd :: [] ∧
    (onQueue [actionMwr 63 0x41#8]).pending = actionMwr 63 0x41#8 :: [] ∧ 63 < State.reset.config.memSize ∧
    (onQueue [actionMrd 64]).pending = actionMrd 64 :: [] ∧ State.reset.config.memSize ≤ 64 ∧
    (onQueue [.reset]).pending = .reset :: [] :=
  ⟨rfl, rfl, rfl, rfl, by decide, rfl, by decide, rfl⟩

theorem test_witness_RefusedExactlyTheUndefinedAccesses :
    step (onQueue [actionMrd 64]) = .refused .addressOutsideMem := rfl

theorem test_witness_CleanRunsDrainTheQueueAndCompose :
    CleanRun [actionWr .din 5#32, actionCmd 0x00000005#32] State.reset
      { State.reset with din := 5#32, dout := 0x00000046#32, status := 0x00000010#32 } := ⟨rfl, rfl⟩

theorem test_witness_EveryStepKeepsTheInvariant : BlockInv (onQueue [actionMwr 63 0x41#8]) ∧
    step (onQueue [actionMwr 63 0x41#8]) = .next (stepped (onQueue [actionMwr 63 0x41#8])) :=
  ⟨⟨by decide, rfl, (fun c h => by simp [onQueue, State.reset, State.resetOf] at h), by decide,
    (fun h => absurd h (by decide))⟩, rfl⟩

theorem test_witness_OnlyResetDrawsMemAgain : (onQueue [actionRd .din]).pending = actionRd .din :: [] ∧
    step (onQueue [actionRd .din]) = .next { State.reset with returned := [.reg 0#32] } ∧ actionRd .din ≠ .reset :=
  ⟨rfl, rfl, by decide⟩

end Sys2Proof.Tests
end

section
/-! The lengths of the codec's outputs (41_encoder.md R65, 42_decoder.md R76), so that a range check on a computed length is
a bound on what is stored. -/

namespace Sys2Proof.Machine

/-- The length law (R65). -/
@[simp] theorem enc_length (t : List Byte) : (enc t).length = encLength t.length := by
  induction t using enc.induct with
  | case1 b0 b1 b2 rest ih =>
    simp only [enc_group, List.length_append, quadChars_length, ih, encLength, List.length_cons]
    omega
  | case2 b0 b1 => simp [encLength]
  | case3 b0 => simp [encLength]
  | case4 => rfl

theorem pads_le (t : List Byte) : pads t ≤ 2 := by
  unfold pads
  split
  · split
    · omega
    · split <;> omega
  · omega

/-- The trailing PAD characters are among the last two (R75), so a longer string has as many as its tail. -/
theorem pads_cons (c : Byte) {t : List Byte} (h : 2 ≤ t.length) : pads (c :: t) = pads t := by
  have hlen : 2 ≤ t.reverse.length := by rwa [List.length_reverse]
  match hr : t.reverse, hlen with
  | last :: before :: front, _ => simp [pads, hr]
  | [_], hlen => simp at hlen
  | [], hlen => simp at hlen

/-- The write count of a block is 3 less its PAD characters (R75, R80). -/
theorem blockCount_eq (c0 c1 c2 c3 : Byte) : blockCount ⟨c0, c1, c2, c3⟩ = 3 - pads [c0, c1, c2, c3] := by
  simp only [blockCount, pads, List.reverse_cons, List.reverse_nil, List.nil_append, List.cons_append]
  split
  · rfl
  · split <;> rfl

/-- A valid string of more than one block: the first block is of alphabet characters, and the rest is valid (R73). -/
theorem valid_block_append {c0 c1 c2 c3 : Byte} {rest : List Byte} (hr : rest ≠ [])
    (h : valid (c0 :: c1 :: c2 :: c3 :: rest) = true) : isAlpha c3 = true ∧ valid rest = true := by
  have hpos := List.length_pos_of_ne_nil hr
  simp only [valid, List.length_cons, Bool.and_eq_true, beq_iff_eq] at h ⊢
  obtain ⟨⟨hmod, hall⟩, hfinal⟩ := h
  have hlen : rest.length + 1 + 1 + 1 + 1 - 4 = (rest.length - 4) + 1 + 1 + 1 + 1 := by omega
  simp only [hlen, List.take_succ_cons, List.drop_succ_cons, List.all_cons, Bool.and_eq_true] at hall hfinal
  obtain ⟨-, -, -, h3, hrest⟩ := hall
  exact ⟨h3, ⟨by omega, hrest⟩, hfinal⟩

/-- A valid string is empty, or begins with a block of four (R73). -/
theorem eq_nil_or_block_of_valid {t : List Byte} (h : valid t = true) :
    t = [] ∨ ∃ c0 c1 c2 c3 rest, t = c0 :: c1 :: c2 :: c3 :: rest := by
  have hmod : t.length % 4 = 0 := by
    simp only [valid, Bool.and_eq_true, beq_iff_eq] at h
    obtain ⟨⟨hmod, -⟩, -⟩ := h
    exact hmod
  match t with
  | [] => exact .inl rfl
  | c0 :: c1 :: c2 :: c3 :: rest => exact .inr ⟨c0, c1, c2, c3, rest, rfl⟩
  | [_] => simp at hmod
  | [_, _] => simp at hmod
  | [_, _, _] => simp at hmod

/-- A block before others adds three bytes to the output length (R76). -/
theorem decLength_block_append (c0 c1 c2 c3 : Byte) {rest : List Byte} (h : 4 ≤ rest.length) :
    decLength (c0 :: c1 :: c2 :: c3 :: rest) = 3 + decLength rest := by
  have hp := pads_le rest
  have hpads : pads (c0 :: c1 :: c2 :: c3 :: rest) = pads rest := by
    rw [pads_cons c0 (by simp), pads_cons c1 (by simp), pads_cons c2 (by simp; omega), pads_cons c3 (by omega)]
  simp only [decLength, hpads, List.length_cons]
  omega

/-- The bytes DECODE stores are as many as the length it computes first (R76, R81). -/
theorem dec_length {t : List Byte} (h : valid t = true) : (dec t).length = decLength t := by
  induction t using dec.induct with
  | case1 c0 c1 c2 c3 rest ih =>
    rw [dec_block, List.length_append, blockBytes_length]
    by_cases hr : rest = []
    · subst hr
      simp [blockCount_eq, decLength]
    · obtain ⟨h3, hrest⟩ := valid_block_append hr h
      have hcount : blockCount ⟨c0, c1, c2, c3⟩ = 3 := by simp [blockCount, ne_pad_of_isAlpha h3]
      have hlen : 4 ≤ rest.length := by
        obtain rfl | ⟨_, _, _, _, _, rfl⟩ := eq_nil_or_block_of_valid hrest
        · exact absurd rfl hr
        · simp
      rw [hcount, ih hrest, decLength_block_append _ _ _ _ hlen]
  | case2 t hshape =>
    obtain rfl | ⟨c0, c1, c2, c3, rest, rfl⟩ := eq_nil_or_block_of_valid h
    · rfl
    · exact (hshape c0 c1 c2 c3 rest rfl).elim

end Sys2Proof.Machine
end

section
/-! What no command and no host action but RESET changes. -/

namespace Sys2Proof.Machine

/-- The outcomes of a CMD write: those of the word's command, or IllegalCommand (R90, R98). -/
theorem command_cases {w : Word} {s t : State} (h : command w s = .next t) :
    (∃ i, decode w = .ok i ∧ ExecResult s i t) ∨ (∃ e, decode w = .error e ∧ t = raise .illegalCommand s) := by
  cases hw : decode w with
  | ok i =>
    rw [command_of_ok s hw] at h
    exact .inl ⟨i, rfl, exec_cases h⟩
  | error e =>
    rw [command_of_error s hw] at h
    cases h
    exact .inr ⟨e, rfl, rfl⟩

/-- A command leaves MEM_SIZE, the host's queue and the number of the reset draw. -/
theorem ExecResult.frame {i : Instr} {s t : State} (h : ExecResult s i t) :
    t.config = s.config ∧ t.pending = s.pending ∧ t.draws = s.draws := by
  cases h <;> exact ⟨rfl, rfl, rfl⟩

theorem command_frame {w : Word} {s t : State} (h : command w s = .next t) :
    t.config = s.config ∧ t.pending = s.pending ∧ t.draws = s.draws := by
  obtain ⟨i, -, hi⟩ | ⟨e, -, rfl⟩ := command_cases h
  · exact hi.frame
  · exact ⟨rfl, rfl, rfl⟩

/-- A host action leaves MEM_SIZE and the actions after it, and unless it is RESET the number of the reset draw. -/
theorem PerformResult.frame {a : HostAction} {s t : State} (h : PerformResult s a t) :
    t.config = s.config ∧ t.pending = s.pending ∧ (a ≠ .reset → t.draws = s.draws) := by
  cases h with
  | reset => exact ⟨rfl, rfl, fun hne => absurd rfl hne⟩
  | command hw =>
    obtain ⟨hc, hp, hd⟩ := command_frame hw
    exact ⟨hc, hp, fun _ => hd⟩
  | _ => exact ⟨rfl, rfl, fun _ => rfl⟩

end Sys2Proof.Machine
end

section
/-! The invariant of the block's state is kept by each shared operation, then by each command and host action. -/

namespace Sys2Proof.Safety

open Sys2Proof.Machine

variable {s t : State}

/-- With CNT = 0 the rule of DOUT's unused lanes (R19) asks nothing. -/
theorem unusedLanesZero_of_statusCnt (h : statusCnt s.status = 0) : unusedLanesZero s :=
  fun hpos => absurd hpos (by omega)

/-- MEM_SIZE and MEM as before: the invariant is what it says of STATUS and DOUT. -/
theorem blockInv_of_mem_eq (h : BlockInv s) (hc : t.config = s.config) (hm : t.mem = s.mem)
    (hst : Machine.statusLegal t.status = true) (hd : unusedLanesZero t) : BlockInv t where
  configWf := hc ▸ h.configWf
  memWf := hm ▸ h.memWf
  memInside := by
    intro c hcm
    rw [hm] at hcm
    rw [hc]
    exact h.memInside c hcm
  statusLegal := hst
  unusedLanesZero := hd

/-- The invariant speaks of MEM_SIZE, MEM, STATUS and DOUT only. -/
theorem blockInv_congr (h : BlockInv s) (hc : t.config = s.config) (hm : t.mem = s.mem) (hst : t.status = s.status)
    (hd : t.dout = s.dout) : BlockInv t := by
  refine blockInv_of_mem_eq h hc hm (hst ▸ h.statusLegal) ?_
  unfold unusedLanesZero
  rw [hst, hd]
  exact h.unusedLanesZero

theorem blockInv_raise (e : ErrorClass) (h : BlockInv s) : BlockInv (raise e s) :=
  blockInv_of_mem_eq h rfl rfl (statusLegal_statusOfError e) (unusedLanesZero_of_statusCnt (statusCnt_statusOfError e))

/-- A success that reports CNT = 0 (R104). -/
theorem blockInv_of_statusOk_zero (h : BlockInv s) (hc : t.config = s.config) (hm : t.mem = s.mem)
    (hst : t.status = statusOk 0) : BlockInv t := by
  refine blockInv_of_mem_eq h hc hm ?_ (unusedLanesZero_of_statusCnt ?_)
  · rw [hst]
    exact statusLegal_statusOk (by omega)
  · rw [hst]
    exact statusCnt_statusOk (by omega)

theorem blockInv_succeedGroup {out : Word} {cnt : Nat} (hcnt : cnt ≤ 4)
    (hout : ∀ k, cnt ≤ k → k < 4 → lane k out = 0#8) (h : BlockInv s) : BlockInv (succeedGroup out cnt s) := by
  refine blockInv_of_mem_eq h rfl rfl (statusLegal_statusOk hcnt) ?_
  intro _ k hk hk4
  rw [succeedGroup_status, statusCnt_statusOk hcnt] at hk
  exact hout k hk hk4

theorem blockInv_succeedStream (n : Nat) (h : BlockInv s) : BlockInv (succeedStream n s) :=
  blockInv_of_statusOk_zero h rfl rfl rfl

theorem blockInv_writeRange {d : Nat} {u : List Byte} (hin : d + u.length ≤ s.config.memSize) (h : BlockInv s) :
    BlockInv (s.writeRange d u) where
  configWf := h.configWf
  memWf := Memory.wf_writeList u s.mem d h.memWf
  memInside := Memory.forall_writeList (p := (· < s.config.memSize)) u s.mem d h.memInside (fun a _ ha => by omega)
  statusLegal := h.statusLegal
  unusedLanesZero := h.unusedLanesZero

theorem blockInv_writeByte {a : Nat} (v : Byte) (ha : a < s.config.memSize) (h : BlockInv s) :
    BlockInv (s.writeByte a v) :=
  blockInv_writeRange (u := [v]) ha h

/-- After a reset of any block whose MEM_SIZE is in its range (R30, R114). -/
theorem blockInv_resetOf {c : Config} (draw : Nat) (hc : c.wf = true) : BlockInv (State.resetOf c draw) where
  configWf := hc
  memWf := rfl
  memInside := fun _ hmem => absurd hmem List.not_mem_nil
  statusLegal := statusLegal_statusOk (cnt := 0) (by omega)
  unusedLanesZero := unusedLanesZero_of_statusCnt (statusCnt_statusOk (cnt := 0) (by omega))

theorem blockInv_exec {i : Instr} (hr : ExecResult s i t) (h : BlockInv s) : BlockInv t := by
  cases hr with
  | error e => exact blockInv_raise e h
  | clr => exact blockInv_of_statusOk_zero h rfl rfl rfl
  | group out cnt _ _ hcnt hout => exact blockInv_succeedGroup hcnt hout h
  | check _ _ => exact blockInv_succeedStream _ h
  | encode _ hdst _ =>
    refine blockInv_succeedStream _ (blockInv_writeRange ?_ h)
    rwa [enc_length, input_length]
  | decode _ hvalid hdst _ =>
    refine blockInv_succeedStream _ (blockInv_writeRange ?_ h)
    rwa [dec_length hvalid]

theorem blockInv_command {w : Word} (hw : command w s = .next t) (h : BlockInv s) : BlockInv t := by
  obtain ⟨i, -, hi⟩ | ⟨e, -, rfl⟩ := command_cases hw
  · exact blockInv_exec hi h
  · exact blockInv_raise _ h

theorem blockInv_perform {a : HostAction} (hr : PerformResult s a t) (h : BlockInv s) : BlockInv t := by
  cases hr with
  | reset => exact blockInv_congr (blockInv_resetOf (s.draws + 1) h.configWf) rfl rfl rfl rfl
  | command hw => exact blockInv_command hw h
  | store v ha => exact blockInv_writeByte v ha h
  | _ => exact blockInv_congr h rfl rfl rfl rfl

end Sys2Proof.Safety
end

section
/-! ENCODE of one group, beside the group encoders (41_encoder.md R64, R68 to R71). -/

namespace Sys2Proof.Machine

open Sys2Proof.Safety

/-- A lane of a packed word is the character of that place in the string (R34, R36). -/
theorem lane_packLanes (q : Quad) {k : Nat} (h : k < 4) :
    lane k (packLanes q) = (quadChars q)[k]'(by simpa using h) := by
  have hl := lanesOf_packLanes q
  generalize packLanes q = w at hl
  subst hl
  match k, h with
  | 0, _ => rfl
  | 1, _ => rfl
  | 2, _ => rfl
  | 3, _ => rfl

/-- No error leaves the STATUS of a success (R95). -/
theorem statusOfError_ne_zero (e : ErrorClass) : statusOfError e ≠ 0x00000000#32 := by
  cases e <;> decide

/-- ENCODE that succeeds has stored `enc` of its input at x[DST] (R71). -/
theorem readByte_of_encode {s t : State} (h : exec .encode s = .next t) (hst : t.status = 0x00000000#32) {k : Nat}
    (hk : k < (enc (input s)).length) : t.readByte (s.dst.toNat + k) = (enc (input s))[k] := by
  cases exec_cases h with
  | error e => exact absurd hst (statusOfError_ne_zero e)
  | group _ _ hg => exact absurd hg (by decide)
  | encode _ _ _ => exact readByte_writeRange_inside s _ _ k hk

/-- Where DIN's lanes hold the input of a stream command, the input is those lanes (R36, R42). -/
theorem input_eq_lanes {s : State} (h : ∀ k < s.len.toNat, lane k s.din = s.readByte (s.src.toNat + k)) :
    input s = (List.range s.len.toNat).map (lane · s.din) :=
  List.map_congr_left (fun k hk => (h k (List.mem_range.1 hk)).symm)

/-- ENCODE of an input that is one output group stores the lanes of that group's word. -/
theorem readByte_of_encode_group {s t : State} {q : Quad} (h : exec .encode s = .next t)
    (hst : t.status = 0x00000000#32) (hq : enc (input s) = quadChars q) :
    ∀ k < 4, t.readByte (s.dst.toNat + k) = lane k (packLanes q) := by
  intro k hk
  rw [lane_packLanes q hk, readByte_of_encode h hst (by simpa [hq] using hk)]
  simp only [hq]

end Sys2Proof.Machine
end

section
/-! The obligations of 00_scope.md. -/

namespace Sys2Proof.Proofs

open Sys2Proof.Machine Sys2Proof.Safety

/-- Settles O54: MEM_SIZE = 64 is in its range, and the rest holds after every reset. -/
theorem resetMeetsTheInvariant : Obligations.ResetMeetsTheInvariant :=
  blockInv_resetOf 0 (by decide)

/-- Settles O55, by the outcomes a host action can have, and those of a command; the output of ENCODE and DECODE stays in MEM
because it is as long as the length their range check was made on. -/
theorem everyStepKeepsTheInvariant : Obligations.EveryStepKeepsTheInvariant := by
  intro s t h hstep
  cases hp : s.pending with
  | nil =>
    simp only [step, hp] at hstep
    cases hstep
    exact h
  | cons a rest =>
    rw [step_of_pending hp] at hstep
    exact blockInv_perform (perform_cases hstep) (blockInv_congr h rfl rfl rfl rfl)

/-- Settles O56, by the outcomes a host action can have. -/
theorem onlyResetDrawsMemAgain : Obligations.OnlyResetDrawsMemAgain := by
  intro s t a rest hp hstep
  rw [step_of_pending hp] at hstep
  exact (perform_cases hstep).frame

/-- Settles O37: `enc` of three, two or one bytes is one group, whose characters the group encoder packs into DOUT. -/
theorem streamEncodeAgreesWithTheGroupEncoders : Obligations.StreamEncodeAgreesWithTheGroupEncoders := by
  intro s t h hst hdin
  have hinput := input_eq_lanes hdin
  refine ⟨fun hlen => ⟨_, rfl, ?_⟩, fun hlen => ⟨_, rfl, ?_⟩, fun hlen => ⟨_, rfl, ?_⟩⟩
  all_goals
    rw [hlen] at hinput
    exact readByte_of_encode_group h hst (congrArg enc hinput)

end Sys2Proof.Proofs
end

section
/-! The tables ALPHA and RLUT beside each other (10_state.md R12 to R14). -/

namespace Sys2Proof.Machine

theorem alpha_eq_upper {i : Sextet} (h : i.toNat ≤ 25) : alpha i = BitVec.ofNat 8 (0x41 + i.toNat) := if_pos h

theorem alpha_eq_lower {i : Sextet} (h1 : 26 ≤ i.toNat) (h2 : i.toNat ≤ 51) :
    alpha i = BitVec.ofNat 8 (0x61 + (i.toNat - 26)) :=
  (if_neg (by omega)).trans (if_pos h2)

theorem alpha_eq_digit {i : Sextet} (h1 : 52 ≤ i.toNat) (h2 : i.toNat ≤ 61) :
    alpha i = BitVec.ofNat 8 (0x30 + (i.toNat - 52)) :=
  (if_neg (by omega)).trans ((if_neg (by omega)).trans (if_pos h2))

/-- The index of an ALPHA entry is found again (R14). -/
@[simp] theorem rlut_alpha (i : Sextet) : rlut (alpha i) = ⟨true, i⟩ := by
  revert i
  decide

/-- An alphabet character is the ALPHA entry of its index (R14). -/
theorem alpha_rlut_idx {c : Byte} (h : (rlut c).valid = true) : alpha (rlut c).idx = c := by
  revert c
  decide

/-- A code that is no alphabet character has the entry (0, 0) (R13). -/
theorem rlut_of_not_valid {c : Byte} (h : (rlut c).valid = false) : rlut c = ⟨false, 0#6⟩ := by
  revert c
  decide

end Sys2Proof.Machine
end

section
/-! Commands as host writes of their words, and MEM after reset (10_state.md R16, R26, R30). -/

namespace Sys2Proof.Machine

@[simp] theorem decode_encode (i : Instr) : decode (encode i) = .ok i := by
  cases i <;> rfl

/-- A 32-bit word is the table word of its own value. -/
@[simp] theorem tableWord_toNat (w : Word) : tableWord 32 w.toNat = w := by
  rw [tableWord, Nat.mod_eq_of_lt w.isLt, BitVec.ofNat_toNat, BitVec.setWidth_eq]

/-- A pending CMD write of a command's word makes the step that command's. -/
theorem step_of_pending_command {s : State} {rest : List HostAction} {w : Word} {i : Instr}
    (hp : s.pending = actionCmd w :: rest) (hw : decode w = .ok i) : step s = exec i { s with pending := rest } := by
  rw [step_of_pending hp, perform_actionCmd, command_of_ok _ hw]

@[simp] theorem readByte_resetOf (c : Config) (draw a : Nat) :
    (State.resetOf c draw).readByte a = Config.memDraw draw a := rfl

end Sys2Proof.Machine
end

section
/-! What a command leaves in STATUS, and that it does not read it (10_state.md R17, 60_exceptions.md R104). -/

namespace Sys2Proof.Machine

open Sys2Proof.Safety

theorem reportsError_statusOk {cnt : Nat} (h : cnt ≤ 4) : reportsError (statusOk cnt) = false := by
  obtain ⟨hfmt, harg, hop⟩ := statusOk_bits h
  simp [reportsError, hfmt, harg, hop]

theorem not_reportsError_succeedGroup (out : Word) {cnt : Nat} (h : cnt ≤ 4) (s : State) :
    ¬ reportsError (succeedGroup out cnt s).status = true := by
  rw [succeedGroup_status, reportsError_statusOk h]
  exact Bool.false_ne_true

theorem not_reportsError_succeedStream (n : Nat) (s : State) :
    ¬ reportsError (succeedStream n s).status = true := by
  rw [succeedStream_status, reportsError_statusOk (Nat.zero_le 4)]
  exact Bool.false_ne_true

theorem ExecResult.statusLegal {i : Instr} {s t : State} (h : ExecResult s i t) : statusLegal t.status = true := by
  cases h with
  | error e => exact statusLegal_statusOfError e
  | group _ _ _ _ hcnt _ => exact statusLegal_statusOk hcnt
  | _ => exact statusLegal_statusOk (Nat.zero_le 4)

/-- No command reads STATUS, and each of its endings writes all of it. -/
theorem exec_with_status (i : Instr) (x : Word) (s : State) : exec i { s with status := x } = exec i s := by
  cases i <;> rfl

theorem command_with_status (w x : Word) (s : State) : command w { s with status := x } = command w s := by
  cases hw : decode w with
  | ok i => rw [command_of_ok _ hw, command_of_ok _ hw, exec_with_status]
  | error e => rw [command_of_error _ hw, command_of_error _ hw]; rfl

theorem statusLegal_of_command {w : Word} {s t : State} (h : command w s = .next t) : statusLegal t.status = true := by
  obtain ⟨i, -, hi⟩ | ⟨e, -, rfl⟩ := command_cases h
  · exact hi.statusLegal
  · exact statusLegal_statusOfError _

theorem isStream_eq_false_of_isGroup {i : Instr} : isGroup i = true → isStream i = false := by
  cases i <;> decide

end Sys2Proof.Machine
end

section
/-! The stream commands as functions of what they read (20_memory.md R48): a verdict, and how the command ends by it. So
every command completes (60_exceptions.md R95). -/

namespace Sys2Proof.Machine

open Sys2Proof.Safety

/-- What a stream command comes to: the error it raises, or the bytes it stores at x[DST] and the length OLEN receives. -/
abbrev StreamVerdict := Except ErrorClass (List Byte × Nat)

/-- The checks on an output range of `m` bytes (R42, R43), then the output `out`. -/
def outputVerdict (s : State) (m : Nat) (out : List Byte) : StreamVerdict :=
  if !s.insideMem s.dstAddr m then .error .invalidArgument
  else if overlaps s.srcAddr s.inLen s.dstAddr m then .error .invalidArgument
  else .ok (out, m)

/-- The verdict of a stream command, its checks in the order of R71, R83 and R84. `exec_stream` ties it to the model; for a
command of another kind it is not used. -/
def streamVerdict (i : Instr) (s : State) : StreamVerdict :=
  if !s.insideMem s.srcAddr s.inLen then .error .invalidArgument
  else
    match i with
    | .encode => outputVerdict s (encLength s.inLen) (enc (input s))
    | .decode =>
      if !valid (input s) then .error .formatError
      else outputVerdict s (decLength (input s)) (dec (input s))
    | .check => if !valid (input s) then .error .formatError else .ok ([], decLength (input s))
    | _ => .error .illegalCommand

/-- The end of a stream command by its verdict (R103, R104). -/
def State.endStream (s : State) : StreamVerdict → State
  | .error e => raise e s
  | .ok (out, n) => succeedStream n (s.writeRange s.dst.toNat out)

/-- A stream command ends by its verdict. -/
theorem exec_stream {i : Instr} (hi : isStream i = true) (s : State) :
    exec i s = .next (s.endStream (streamVerdict i s)) := by
  have hin : s.readRange s.srcAddr s.inLen = input s := rfl
  cases i with
  | encode =>
    simp only [exec, execEncode, streamVerdict, outputVerdict, hin]
    split_ifs <;> rfl
  | decode =>
    simp only [exec, execDecode, streamVerdict, outputVerdict, hin]
    split_ifs <;> rfl
  | check =>
    simp only [exec, execCheck, streamVerdict, hin]
    split_ifs <;> rfl
  | _ => cases hi

theorem outputVerdict_ok {s : State} {m : Nat} {out : List Byte} {r : List Byte × Nat}
    (h : outputVerdict s m out = .ok r) : r = (out, m) := by
  unfold outputVerdict at h
  split_ifs at h
  cases h
  rfl

/-- The output of ENCODE and DECODE is as long as the length put in OLEN (R65, R76). -/
theorem length_of_streamVerdict_ok {i : Instr} {s : State} {r : List Byte × Nat} (hne : i ≠ .check)
    (h : streamVerdict i s = .ok r) : r.1.length = r.2 := by
  unfold streamVerdict at h
  split at h
  · cases h
  · cases i with
    | encode =>
      rw [outputVerdict_ok h, enc_length, input_length, State.inLen]
    | decode =>
      simp only at h
      split at h
      · cases h
      · rename_i hvalid
        rw [outputVerdict_ok h, dec_length (by simpa using hvalid)]
    | check => exact absurd rfl hne
    | _ => cases h

/-- The verdict depends on MEM_SIZE, SRC, LEN, DST and the input bytes alone. -/
theorem streamVerdict_congr (i : Instr) {s s' : State} (hconfig : s'.config = s.config) (hsrc : s'.src = s.src)
    (hlen : s'.len = s.len) (hdst : s'.dst = s.dst) (hin : input s' = input s) :
    streamVerdict i s' = streamVerdict i s := by
  have hinside (a n : Nat) : s'.insideMem a n = s.insideMem a n := by rw [insideMem_eq, insideMem_eq, hconfig]
  have hsrcAddr : s'.srcAddr = s.srcAddr := congrArg BitVec.toNat hsrc
  have hinLen : s'.inLen = s.inLen := congrArg BitVec.toNat hlen
  have hdstAddr : s'.dstAddr = s.dstAddr := congrArg BitVec.toNat hdst
  simp only [streamVerdict, outputVerdict, hinside, hsrcAddr, hinLen, hdstAddr, hin]

/-- Of the commands that are no stream command, only DECG and RLUT can end in two ways. -/
theorem exec_completes (i : Instr) (s : State) : ∃ t, exec i s = .next t := by
  cases i with
  | decg => simp only [exec, execDecg]; split <;> exact ⟨_, rfl⟩
  | rlut => simp only [exec, execRlut]; split <;> exact ⟨_, rfl⟩
  | encode => exact ⟨_, exec_stream rfl s⟩
  | decode => exact ⟨_, exec_stream rfl s⟩
  | check => exact ⟨_, exec_stream rfl s⟩
  | _ => exact ⟨_, rfl⟩

theorem command_completes (w : Word) (s : State) : ∃ t, command w s = .next t := by
  cases hw : decode w with
  | ok i => simpa only [command_of_ok s hw] using exec_completes i s
  | error e => exact ⟨_, command_of_error s hw⟩

end Sys2Proof.Machine
end

section
/-! The obligations of 10_state.md. -/

namespace Sys2Proof.Proofs

open Sys2Proof.Machine Sys2Proof.Safety

/-- Settles O38: both states come to the same verdict, and each stores its output at the same x[DST]. -/
theorem streamOutputDependsOnItsInputOnly : Obligations.StreamOutputDependsOnItsInputOnly := by
  intro i s s' t t' hi hconfig hsrc hlen hdst hbytes h h'
  have hin : input s' = input s := by
    rw [input_eq, input_eq, hsrc, hlen]
    exact readRange_ext hbytes
  rw [exec_stream hi] at h h'
  rw [streamVerdict_congr i hconfig hsrc hlen hdst hin] at h'
  cases h
  cases h'
  cases hv : streamVerdict i s with
  | error e => exact ⟨rfl, fun hok => absurd hok (statusOfError_ne_zero e)⟩
  | ok r =>
    refine ⟨rfl, fun _ => ⟨rfl, fun hne k hk => ?_⟩⟩
    have hout : k < r.1.length := by
      rw [length_of_streamVerdict_ok hne hv]
      exact Nat.lt_of_lt_of_le hk (Nat.mod_le r.2 _)
    simp only [State.endStream, readByte_succeedStream, hdst, readByte_writeRange_inside _ _ _ _ hout]

/-- Settles O39, by the outcomes of a command: an error leaves all but STATUS, CLR too, and a group command's success writes
DOUT beside it. -/
theorem groupCommandsWriteOnlyDoutAndStatus : Obligations.GroupCommandsWriteOnlyDoutAndStatus := by
  intro i s t hi h
  cases exec_cases h with
  | error e => exact ⟨rfl, fun _ => rfl, fun _ => rfl⟩
  | clr => exact ⟨rfl, fun _ => rfl, fun _ => rfl⟩
  | group out cnt hg _ hcnt _ =>
    refine ⟨rfl, fun hc => ?_, fun _ => rfl⟩
    rcases hc with rfl | herr
    · cases hg
    · exact absurd herr (not_reportsError_succeedGroup out hcnt s)
  | check | encode | decode => simp [isGroup] at hi

/-- Settles O40, by the outcomes of a command: an error leaves all but STATUS, CHECK stores nothing, and the range ENCODE and
DECODE store is as long as their output. -/
theorem streamCommandsWriteOnlyTheirOutput : Obligations.StreamCommandsWriteOnlyTheirOutput := by
  intro i s t hi h
  cases exec_cases h with
  | error e => exact ⟨rfl, fun _ => ⟨rfl, rfl⟩, fun _ => rfl, fun _ _ _ => rfl, fun _ _ _ => rfl⟩
  | clr => cases hi
  | group _ _ hg _ _ _ =>
    rw [isStream_eq_false_of_isGroup hg] at hi
    cases hi
  | check _ _ =>
    exact ⟨rfl, fun herr => absurd herr (not_reportsError_succeedStream _ _), fun _ => rfl, fun _ _ _ => rfl,
      fun _ _ _ => rfl⟩
  | encode _ _ _ =>
    exact ⟨rfl, fun herr => absurd herr (not_reportsError_succeedStream _ _), nofun,
      fun _ a ha => readByte_writeRange_outside s _ _ a (by simpa using ha), nofun⟩
  | decode _ hvalid _ _ =>
    exact ⟨rfl, fun herr => absurd herr (not_reportsError_succeedStream _ _), nofun, nofun,
      fun _ a ha => readByte_writeRange_outside s _ _ a (by simpa [dec_length hvalid] using ha)⟩

/-- Settles O43: a command's result is legal by its outcomes, and the STATUS before has no part in it. -/
theorem everyCommandRewritesStatus : Obligations.EveryCommandRewritesStatus := by
  intro w x s
  obtain ⟨t, ht⟩ := command_completes w s
  exact ⟨t, ht, (command_with_status w x s).trans ht, statusLegal_of_command ht⟩

/-- Settles O4, by the step of a pending CMD write. -/
theorem stepRunsTheDecodedCommand : Obligations.StepRunsTheDecodedCommand := by
  refine ⟨fun s rest w i => step_of_pending_command, fun s i => ?_⟩
  exact step_of_pending_command (withFetchWord_pending s 32 _) (by simp)

/-- Settles O7, on each range of R12's closed form: no code there is above 255. -/
theorem alphaHoldsTheStandardAlphabet : Obligations.AlphaHoldsTheStandardAlphabet := by
  intro i
  refine ⟨fun h => ?_, fun h1 h2 => ?_, fun h1 h2 => ?_, fun h => ?_, fun h => ?_⟩
  · rw [alpha_eq_upper h, BitVec.toNat_ofNat]
    omega
  · rw [alpha_eq_lower h1 h2, BitVec.toNat_ofNat]
    omega
  · rw [alpha_eq_digit h1 h2, BitVec.toNat_ofNat]
    omega
  · simp [alpha, h]
  · simp [alpha, h]

/-- Settles O8: an ALPHA entry is found again, and a valid code would be an ALPHA entry. -/
theorem rlutIsTheReverseOfAlpha : Obligations.RlutIsTheReverseOfAlpha := by
  intro c
  refine ⟨fun i hi => hi ▸ rlut_alpha i, fun hnone => ?_⟩
  cases hv : (rlut c).valid with
  | false => exact rlut_of_not_valid hv
  | true => exact absurd (alpha_rlut_idx hv) (hnone _)

/-- Settles O9: the tables are inverses, and the valid codes are counted. -/
theorem tablesAreInversesOnTheAlphabet : Obligations.TablesAreInversesOnTheAlphabet :=
  ⟨rlut_alpha, fun _ => alpha_rlut_idx, by decide⟩

/-- Settles O51: the reset state holds 0 in every register and no written byte. -/
theorem registersAreZeroAfterReset : Obligations.RegistersAreZeroAfterReset :=
  ⟨rfl, rfl, rfl, rfl, rfl, rfl, rfl, readByte_resetOf _ _⟩

end Sys2Proof.Proofs
end

section
/-! The length a stream command that succeeds puts in OLEN (20_memory.md R44). -/

namespace Sys2Proof.Machine

open Sys2Proof.Safety

/-- OLEN holds a length below 2^32 exactly (R44). -/
theorem succeedStream_olen_toNat {n : Nat} (hn : n < 2 ^ 32) (s : State) : (succeedStream n s).olen.toNat = n := by
  rw [succeedStream_olen, BitVec.toNat_ofNat, Nat.mod_eq_of_lt hn]

/-- An output of 2^32 bytes would fill the largest MEM, and so overlap any input but the empty one, whose output is empty. -/
theorem encLength_lt_of_disjoint {a n d : Nat} (ha : a + n ≤ 2 ^ 32) (hd : d + encLength n ≤ 2 ^ 32)
    (hdisjoint : overlaps a n d (encLength n) = false) : encLength n < 2 ^ 32 := by
  have hov := (overlaps_eq_true a n d (encLength n)).not.1 (Bool.eq_false_iff.1 hdisjoint)
  rcases Nat.eq_zero_or_pos n with rfl | hn
  · decide
  · omega

/-- A string in MEM has at most 2^32 - 1 characters, and its output is no longer (R76). -/
theorem decLength_input_lt (s : State) : decLength (input s) < 2 ^ 32 := by
  have hlen := s.len.isLt
  simp only [decLength, input_length]
  omega

/-- ENCODE that succeeds has put the length of its output in OLEN, and that length is below 2^32 (R44, R71). -/
theorem olen_of_encode {s t : State} (hconfig : s.config.wf = true) (h : exec .encode s = .next t)
    (hst : t.status = 0x00000000#32) :
    encLength s.len.toNat < 2 ^ 32 ∧ t.olen.toNat = encLength s.len.toNat := by
  simp only [Config.wf, Bool.and_eq_true, decide_eq_true_eq] at hconfig
  obtain ⟨-, hsize⟩ := hconfig
  cases exec_cases h with
  | error e => exact absurd hst (statusOfError_ne_zero e)
  | group _ _ hg => exact absurd hg (by decide)
  | encode hsrc hdst hdisjoint =>
    have hlt := encLength_lt_of_disjoint (hsrc.trans hsize) (hdst.trans hsize) hdisjoint
    exact ⟨hlt, succeedStream_olen_toNat hlt _⟩

/-- DECODE or CHECK that succeeds has put the output length of its input in OLEN (R83, R84). -/
theorem olen_of_decode_or_check {i : Instr} {s t : State} (hi : i = .decode ∨ i = .check) (h : exec i s = .next t)
    (hst : t.status = 0x00000000#32) : t.olen.toNat = decLength (input s) := by
  cases exec_cases h with
  | error e => exact absurd hst (statusOfError_ne_zero e)
  | check _ _ => exact succeedStream_olen_toNat (decLength_input_lt s) _
  | decode _ _ _ _ => exact succeedStream_olen_toNat (decLength_input_lt s) _
  | group _ _ hg => rcases hi with rfl | rfl <;> cases hg
  | clr | encode _ _ _ => simp at hi

end Sys2Proof.Machine
end

section
/-! The host's queue has no part in what a host action does (20_memory.md R45), so a clean run performs its actions one
after another (43_control.md R94). -/

namespace Sys2Proof.Machine

open Sys2Proof.Safety

/-- A stream command's verdict and its ending do not depend on the host's queue. -/
theorem exec_stream_with_pending {i : Instr} {s t : State} (q : List HostAction) (hi : isStream i = true)
    (h : exec i s = .next t) : exec i { s with pending := q } = .next { t with pending := q } := by
  have hverdict : streamVerdict i { s with pending := q } = streamVerdict i s :=
    streamVerdict_congr i rfl rfl rfl rfl rfl
  rw [exec_stream hi] at h ⊢
  cases h
  rw [hverdict]
  cases streamVerdict i s <;> rfl

/-- No command reads or writes the host's queue. -/
theorem exec_with_pending {i : Instr} {s t : State} (q : List HostAction) (h : exec i s = .next t) :
    exec i { s with pending := q } = .next { t with pending := q } := by
  cases i with
  | encode | decode | check => exact exec_stream_with_pending q rfl h
  | decg =>
    simp only [exec, execDecg] at h ⊢
    split at h <;> cases h
    · exact if_pos ‹_›
    · exact if_neg ‹_›
  | rlut =>
    simp only [exec, execRlut] at h ⊢
    split at h <;> cases h
    · exact if_pos ‹_›
    · exact if_neg ‹_›
  | _ => cases h; rfl

theorem command_with_pending {w : Word} {s t : State} (q : List HostAction) (h : command w s = .next t) :
    command w { s with pending := q } = .next { t with pending := q } := by
  cases hw : decode w with
  | ok i =>
    rw [command_of_ok _ hw] at h ⊢
    exact exec_with_pending q h
  | error e =>
    rw [command_of_error _ hw] at h ⊢
    cases h
    rfl

/-- A host action that is not refused does the same whatever else is pending. -/
theorem perform_with_pending {a : HostAction} {s t : State} (q : List HostAction) (h : perform a s = .next t) :
    perform a { s with pending := q } = .next { t with pending := q } := by
  cases perform_cases h with
  | reset => rfl
  | command hw => exact (perform_actionCmd _ _).trans (command_with_pending q hw)
  | din v | src v | len v | dst v => exact perform_actionWr _ v _
  | read r v hv =>
    have hv' : ({ s with pending := q } : State).regValue r = some v := hv
    rw [perform_actionRd, readReg, hv']
  | store v ha => exact perform_actionMwr v ha
  | load ha => exact perform_actionMrd ha

theorem with_pending_of_eq {s : State} {q : List HostAction} (h : s.pending = q) : { s with pending := q } = s := by
  rw [← h]

theorem issue_of_pending_nil {s : State} (h : s.pending = []) (p : List HostAction) :
    s.issue p = { s with pending := p } := by
  rw [State.issue, h, List.nil_append]

/-- With the queue empty, an action does the same before and after others are issued. -/
theorem perform_issue {a : HostAction} {s u : State} (p : List HostAction) (hs : s.pending = []) :
    perform a (s.issue p) = .next u ↔ ∃ t, perform a s = .next t ∧ t.issue p = u := by
  rw [issue_of_pending_nil hs]
  constructor
  · intro h
    obtain ⟨-, hp, -⟩ := (perform_cases h).frame
    have hback : perform a { s with pending := [] } = .next { u with pending := [] } :=
      perform_with_pending (s := { s with pending := p }) [] h
    rw [with_pending_of_eq hs] at hback
    exact ⟨_, hback, (issue_of_pending_nil rfl p).trans (with_pending_of_eq hp)⟩
  · rintro ⟨t, h, rfl⟩
    obtain ⟨-, hp, -⟩ := (perform_cases h).frame
    rw [issue_of_pending_nil (hp.trans hs)]
    exact perform_with_pending p h

/-- The next step after a program is issued to an empty queue is its first action. -/
theorem step_issue_cons {s : State} (hs : s.pending = []) (a : HostAction) (p : List HostAction) :
    step (s.issue (a :: p)) = perform a (s.issue p) := by
  rw [issue_of_pending_nil hs, issue_of_pending_nil hs]
  rfl

theorem run_succ_eq_next {k : Nat} {s u : State} :
    Host.Core.run core (k + 1) s = .next u ↔ ∃ t, step s = .next t ∧ Host.Core.run core k t = .next u := by
  have hstep : core.step s = step s := rfl
  cases h : step s <;> simp [Host.Core.run, hstep, h]

end Sys2Proof.Machine

namespace Sys2Proof.Safety

open Sys2Proof.Machine

theorem cleanRun_nil {s u : State} : CleanRun [] s u ↔ s.pending = [] ∧ s = u := by
  refine and_congr_right (fun hs => ?_)
  have hissue : s.issue [] = s := (issue_of_pending_nil hs []).trans (with_pending_of_eq hs)
  rw [hissue]
  exact iff_of_eq (Host.Outcome.next.injEq s u)

/-- A clean run performs its first action, then is a clean run of the others. -/
theorem cleanRun_cons {a : HostAction} {p : List HostAction} {s u : State} :
    CleanRun (a :: p) s u ↔ s.pending = [] ∧ ∃ t, perform a s = .next t ∧ CleanRun p t u := by
  refine and_congr_right (fun hs => ?_)
  rw [List.length_cons, run_succ_eq_next, step_issue_cons hs]
  constructor
  · rintro ⟨_, hstep, hrun⟩
    obtain ⟨t, ht, rfl⟩ := (perform_issue p hs).1 hstep
    obtain ⟨-, hp, -⟩ := (perform_cases ht).frame
    exact ⟨t, ht, hp.trans hs, hrun⟩
  · rintro ⟨t, ht, -, hrun⟩
    exact ⟨t.issue p, (perform_issue p hs).2 ⟨t, ht, rfl⟩, hrun⟩

theorem pending_of_cleanRun {p : List HostAction} {s u : State} (h : CleanRun p s u) : u.pending = [] := by
  induction p generalizing s with
  | nil =>
    obtain ⟨hs, rfl⟩ := cleanRun_nil.1 h
    exact hs
  | cons a p ih =>
    obtain ⟨-, t, -, ht⟩ := cleanRun_cons.1 h
    exact ih ht

theorem cleanRun_append {p q : List HostAction} {s u : State} :
    CleanRun (p ++ q) s u ↔ ∃ t, CleanRun p s t ∧ CleanRun q t u := by
  induction p generalizing s with
  | nil =>
    constructor
    · intro h
      obtain ⟨hs, hrun⟩ := h
      exact ⟨s, cleanRun_nil.2 ⟨hs, rfl⟩, hs, hrun⟩
    · rintro ⟨t, hp, hq⟩
      obtain ⟨-, rfl⟩ := cleanRun_nil.1 hp
      exact hq
  | cons a p ih =>
    simp only [List.cons_append, cleanRun_cons, ih]
    constructor
    · rintro ⟨hs, t, ha, t', hp, hq⟩
      exact ⟨t', ⟨hs, t, ha, hp⟩, hq⟩
    · rintro ⟨t', ⟨hs, t, ha, hp⟩, hq⟩
      exact ⟨hs, t, ha, t', hp, hq⟩

end Sys2Proof.Safety
end

section
/-! The obligations of 20_memory.md. -/

namespace Sys2Proof.Proofs

open Sys2Proof.Machine Sys2Proof.Safety

/-- Settles O34: a decoded string is shorter than 2^32, and an encoded one of 2^32 bytes would overlap its input. -/
theorem outputLengthFitsOlen : Obligations.OutputLengthFitsOlen := by
  intro s t hconfig hst
  exact ⟨fun h => olen_of_encode hconfig h hst,
    fun h => ⟨decLength_input_lt s, olen_of_decode_or_check (.inl rfl) h hst⟩,
    fun h => ⟨decLength_input_lt s, olen_of_decode_or_check (.inr rfl) h hst⟩⟩

/-- Settles O52, by induction on the first program: its first action does the same whatever is issued after it. -/
theorem cleanRunsDrainTheQueueAndCompose : Obligations.CleanRunsDrainTheQueueAndCompose :=
  fun _ _ _ _ => ⟨pending_of_cleanRun, cleanRun_append⟩

end Sys2Proof.Proofs
end

section
/-! The decoder against the opcode map (30_encoding.md R50 to R53). -/

namespace Sys2Proof

/-- A word is its two fields (R50). -/
theorem eq_of_fields_eq {w v : Word} (hrsv : rsvField w = rsvField v) (hopc : opcField w = opcField v) : w = v := by
  have hhigh := congrArg BitVec.toNat hrsv
  have hlow := congrArg BitVec.toNat hopc
  simp only [rsvField, opcField, BitVec.extractLsb_toNat, Nat.shiftRight_eq_div_pow] at hhigh hlow
  exact BitVec.eq_of_toNat_eq (by omega)

theorem encodesLegalWord (i : Instr) : Laws.EncodesLegalWord.Statement i := by
  cases i
  exacts [Laws.EncodesLegalWord.clr, Laws.EncodesLegalWord.enc3, Laws.EncodesLegalWord.enc2,
    Laws.EncodesLegalWord.enc1, Laws.EncodesLegalWord.decg, Laws.EncodesLegalWord.alut, Laws.EncodesLegalWord.rlut,
    Laws.EncodesLegalWord.encode, Laws.EncodesLegalWord.decode, Laws.EncodesLegalWord.check]

/-- The opcode map gives a command to its own OPC only (R52). -/
theorem eq_opcField_encode_of_commandOfOpc {n : Nat} {i : Instr} (h : commandOfOpc n = .ok i) :
    n = (opcField (encode i)).toNat := by
  unfold commandOfOpc at h
  split at h <;> cases h <;> rfl

/-- The opcode map has no command exactly at 0x07 and from 0x0B up (R53). -/
theorem commandOfOpc_error_iff (n : Nat) : (∃ e, commandOfOpc n = .error e) ↔ n = 0x07 ∨ 0x0B ≤ n := by
  unfold commandOfOpc
  split
  case h_11 =>
    refine iff_of_true ⟨_, rfl⟩ ?_
    simp only [imp_false] at *
    omega
  all_goals exact iff_of_false nofun (by omega)

theorem decode_of_rsvField_eq {w : Word} (h : rsvField w = 0#24) : decode w = commandOfOpc (opcField w).toNat :=
  if_pos h

theorem decode_of_rsvField_ne {w : Word} (h : rsvField w ≠ 0#24) : decode w = .error .reservedBitsSet :=
  if_neg h

/-- A word that decodes to a command is that command's word. -/
theorem eq_encode_of_decode {w : Word} {i : Instr} (h : decode w = .ok i) : w = encode i := by
  obtain ⟨-, hrsv, -⟩ := encodesLegalWord i
  by_cases hw : rsvField w = 0#24
  · rw [decode_of_rsvField_eq hw] at h
    exact eq_of_fields_eq (hw.trans hrsv.symm) (BitVec.eq_of_toNat_eq (eq_opcField_encode_of_commandOfOpc h))
  · rw [decode_of_rsvField_ne hw] at h
    cases h

theorem decode_error_iff (w : Word) :
    (∃ e, decode w = .error e) ↔ rsvField w ≠ 0#24 ∨ opcField w = 0x07#8 ∨ 0x0B#8 ≤ opcField w := by
  by_cases hw : rsvField w = 0#24
  · rw [decode_of_rsvField_eq hw, commandOfOpc_error_iff, BitVec.le_def, ← BitVec.toNat_inj]
    exact ⟨.inr, fun h => h.resolve_left (absurd hw)⟩
  · exact iff_of_true ⟨_, decode_of_rsvField_ne hw⟩ (.inl hw)

end Sys2Proof

namespace Sys2Proof.Machine

/-- A pending CMD write of an illegal word makes the step raise IllegalCommand (R98). -/
theorem step_of_pending_illegal {s : State} {rest : List HostAction} {w : Word} {e : DecodeError}
    (hp : s.pending = actionCmd w :: rest) (hw : decode w = .error e) :
    step s = .next (raise .illegalCommand { s with pending := rest }) := by
  rw [step_of_pending hp, perform_actionCmd, command_of_error _ hw]

end Sys2Proof.Machine
end

section
/-! The group commands as functions of DIN (30_encoding.md R54), and the bits of DIN they read (R52). -/

namespace Sys2Proof.Machine

open Sys2Proof.Safety

/-- What a group command comes to: the error it raises, or DOUT and CNT. -/
abbrev GroupVerdict := Except ErrorClass (Word × Nat)

/-- The verdict of a group command on DIN. `exec_group` ties it to the model; for a command of another kind it is not
used. -/
def groupVerdict (i : Instr) (x : Word) : GroupVerdict :=
  match i with
  | .enc3 => .ok (packLanes (encg3 (lane 0 x) (lane 1 x) (lane 2 x)), 4)
  | .enc2 => .ok (packLanes (encg2 (lane 0 x) (lane 1 x)), 4)
  | .enc1 => .ok (packLanes (encg1 (lane 0 x)), 4)
  | .decg =>
    if vgroup (lanesOf x) then .ok (blockWord (lanesOf x), blockCount (lanesOf x)) else .error .formatError
  | .alut => .ok ((alpha (sextetOf x)).setWidth 32, 1)
  | .rlut => if (rlut (lane 0 x)).valid then .ok ((rlut (lane 0 x)).idx.setWidth 32, 1) else .error .formatError
  | _ => .error .illegalCommand

/-- The end of a group command by its verdict (R103, R104). -/
def State.endGroup (s : State) : GroupVerdict → State
  | .error e => raise e s
  | .ok (out, cnt) => succeedGroup out cnt s

/-- A group command ends by its verdict. -/
theorem exec_group {i : Instr} (hi : isGroup i = true) (s : State) :
    exec i s = .next (s.endGroup (groupVerdict i s.din)) := by
  cases i with
  | enc3 | enc2 | enc1 | alut => rfl
  | decg =>
    simp only [exec, execDecg, groupVerdict]
    split <;> rfl
  | rlut =>
    simp only [exec, execRlut, groupVerdict]
    split <;> rfl
  | _ => cases hi

/-- How a group command ends leaves DIN, and does not read it. -/
theorem endGroup_with_din (s : State) (x : Word) (v : GroupVerdict) :
    ({ s with din := x } : State).endGroup v = { s.endGroup v with din := x } := by
  cases v <;> rfl

/-- Words that agree under a mask have the same slice wherever the mask is all ones. -/
theorem extractLsb'_eq_of_and_eq {x y m : Word} {start len : Nat} (h : x &&& m = y &&& m)
    (hm : m.extractLsb' start len = BitVec.allOnes len) : x.extractLsb' start len = y.extractLsb' start len := by
  have hs := congrArg (BitVec.extractLsb' start len) h
  rwa [BitVec.extractLsb'_and, BitVec.extractLsb'_and, hm, BitVec.and_allOnes, BitVec.and_allOnes] at hs

theorem lane_eq_of_and_eq {x y m : Word} {k : Nat} (h : x &&& m = y &&& m) (hm : lane k m = BitVec.allOnes 8) :
    lane k x = lane k y :=
  extractLsb'_eq_of_and_eq h hm

/-- A group command's verdict depends on the bits of DIN it reads alone (R54). -/
theorem groupVerdict_congr {i : Instr} {x y : Word} (h : x &&& dinMask i = y &&& dinMask i) :
    groupVerdict i x = groupVerdict i y := by
  cases i with
  | enc3 =>
    simp only [groupVerdict, lane_eq_of_and_eq (k := 0) h rfl, lane_eq_of_and_eq (k := 1) h rfl,
      lane_eq_of_and_eq (k := 2) h rfl]
  | enc2 => simp only [groupVerdict, lane_eq_of_and_eq (k := 0) h rfl, lane_eq_of_and_eq (k := 1) h rfl]
  | enc1 | rlut => simp only [groupVerdict, lane_eq_of_and_eq (k := 0) h rfl]
  | decg =>
    have hmask : dinMask .decg = BitVec.allOnes 32 := rfl
    rw [hmask, BitVec.and_allOnes, BitVec.and_allOnes] at h
    rw [h]
  | alut =>
    have hxy : sextetOf x = sextetOf y := extractLsb'_eq_of_and_eq h rfl
    simp only [groupVerdict, hxy]
  | _ => rfl

end Sys2Proof.Machine
end

section
/-! The host actions of the pseudo-actions (30_encoding.md R57). -/

namespace Sys2Proof.Machine

/-- Action j of a sequence of stores writes byte j, j addresses on. -/
theorem mwrSequence_getElem? (a : Nat) (t : List Byte) (j : Nat) :
    (mwrSequence a t)[j]? = (t[j]?).map (fun v => actionMwr (a + j) v) := by
  induction t generalizing a j with
  | nil => rfl
  | cons v vs ih =>
    cases j with
    | zero => rfl
    | succ j => simp [mwrSequence, ih, Nat.add_right_comm, Nat.add_assoc]

/-- The word whose lanes are four bytes is their concatenation, lane 3 first (R36). -/
theorem packLanes_eq_append (c0 c1 c2 c3 : Byte) : packLanes ⟨c0, c1, c2, c3⟩ = c3 ++ (c2 ++ (c1 ++ c0)) := by
  refine BitVec.eq_of_getLsbD_eq (fun j hj => ?_)
  rw [packLanes_getLsbD]
  simp only [BitVec.getLsbD_append]
  grind

/-- The word DIN4 writes, as R57 spells it, has the four characters in its lanes. -/
theorem din4_word_eq_packLanes (c0 c1 c2 c3 : Byte) :
    (c3.setWidth 32 <<< 24) ||| (c2.setWidth 32 <<< 16) ||| (c1.setWidth 32 <<< 8) ||| c0.setWidth 32 =
      packLanes ⟨c0, c1, c2, c3⟩ := by
  have or_reverse (a b c d : Word) : a ||| b ||| c ||| d = d ||| c ||| b ||| a := by ac_rfl
  exact or_reverse _ _ _ _

end Sys2Proof.Machine
end

section
/-! The obligations of 30_encoding.md. -/

namespace Sys2Proof.Proofs

open Sys2Proof.Machine Sys2Proof.Safety

/-- Settles O2: a word is its two fields, and the opcode map gives each command one OPC. -/
theorem decodeAndEncodeAgree : Obligations.DecodeAndEncodeAgree := by
  refine ⟨fun i _ => decode_encode i, fun w i h => ?_⟩
  obtain rfl := eq_encode_of_decode h
  obtain ⟨-, -, hlegal⟩ := encodesLegalWord i
  exact ⟨rfl, hlegal⟩

/-- Settles O3, by the rows the opcode map leaves empty and the step of a pending CMD write. -/
theorem illegalWordsRaiseIllegalCommand : Obligations.IllegalWordsRaiseIllegalCommand :=
  ⟨decode_error_iff, fun _ _ _ _ => step_of_pending_illegal⟩

/-- Settles O18: a group command comes to a verdict on the bits of DIN it reads, and ends by it. -/
theorem ignoredDinBitsHaveNoEffect : Obligations.IgnoredDinBitsHaveNoEffect := by
  intro i s t x hi hx h
  rw [exec_group hi] at h ⊢
  cases h
  rw [groupVerdict_congr hx, endGroup_with_din]

/-- Settles O53: the stores of MWRB and MWRS by index, DIN4's word by its lanes, the other rows as they stand. -/
theorem pseudoActionsExpandAsTabled : Obligations.PseudoActionsExpandAsTabled := by
  refine ⟨rfl, rfl, rfl, fun c0 c1 c2 c3 => ?_, fun a v0 vs => mwrSequence_getElem? a.toNat (v0 :: vs),
    fun a => mwrSequence_getElem? a.toNat, fun _ _ _ => rfl, fun _ _ _ => rfl, fun _ _ => rfl⟩
  rw [← packLanes_eq_append, ← din4_word_eq_packLanes]
  rfl

/-- Settles O1: each word of the map is the word of its command. -/
theorem specWordsDecodeToTheirCommands : Obligations.SpecWordsDecodeToTheirCommands :=
  ⟨decode_encode .clr, decode_encode .enc3, decode_encode .enc2, decode_encode .enc1, decode_encode .decg,
    decode_encode .alut, decode_encode .rlut, decode_encode .encode, decode_encode .decode, decode_encode .check⟩

end Sys2Proof.Proofs
end

section
/-! What the table commands do, by their operand's table entry (40_tables.md R58, R59). -/

namespace Sys2Proof.Machine

/-- A byte is lane 0 of its zero-extension (R36). -/
@[simp] theorem lane_zero_setWidth (c : Byte) : lane 0 (c.setWidth 32) = c :=
  (BitVec.extractLsb'_setWidth_of_le (by omega)).trans BitVec.extractLsb'_eq_self

theorem exec_alut (s : State) : exec .alut s = .next (succeedGroup ((alpha (sextetOf s.din)).setWidth 32) 1 s) := rfl

/-- RLUT of a character with the entry (1, i) answers i. -/
theorem exec_rlut_of_valid {s : State} {i : Sextet} (h : rlut (lane 0 s.din) = ⟨true, i⟩) :
    exec .rlut s = .next (succeedGroup (i.setWidth 32) 1 s) := by
  simp [exec, execRlut, h]

theorem exec_rlut_of_not_valid {s : State} (h : (rlut (lane 0 s.din)).valid = false) :
    exec .rlut s = .next (raise .formatError s) := by
  simp [exec, execRlut, h]

/-- RLUT on a character of the alphabet finds its index, because the tables are inverses there (R14). -/
theorem exec_rlut_of_alpha {s : State} {i : Sextet} (h : s.din = (alpha i).setWidth 32) :
    exec .rlut s = .next (succeedGroup (i.setWidth 32) 1 s) :=
  exec_rlut_of_valid (by rw [h, lane_zero_setWidth, rlut_alpha])

end Sys2Proof.Machine
end

section
/-! The obligations of 40_tables.md. -/

namespace Sys2Proof.Proofs

open Sys2Proof.Machine

/-- Settles O12: RLUT by its operand's entry, valid or not, and the entry of the character that ALUT gave. -/
theorem rlutLooksUpTheIndex : Obligations.RlutLooksUpTheIndex := by
  refine ⟨decode_encode .rlut, fun s hvalid => ?_, fun s hinvalid => exec_rlut_of_not_valid hinvalid, fun s => ?_⟩
  · have hentry : rlut (lane 0 s.din) = ⟨true, (rlut (lane 0 s.din)).idx⟩ := congrArg (RlutEntry.mk · _) hvalid
    exact exec_rlut_of_valid hentry
  · exact ⟨_, exec_alut s, exec_rlut_of_alpha rfl⟩

/-- Settles O11: ALUT succeeds in every state, with the character of DIN[5:0] and CNT = 1. -/
theorem alutLooksUpTheAlphabet : Obligations.AlutLooksUpTheAlphabet :=
  ⟨decode_encode .alut, exec_alut⟩

end Sys2Proof.Proofs
end

section
/-! The bit slices of bytes and of DIN's lanes that the group encoders look up (20_memory.md R35, 41_encoder.md R60, R62). -/

namespace Sys2Proof.Machine

/-- A slice of a slice is a slice of the whole. -/
theorem extractLsb'_extractLsb' {w : Nat} (x : BitVec w) {start len start' len' : Nat} (h : start' + len' ≤ len) :
    (x.extractLsb' start len).extractLsb' start' len' = x.extractLsb' (start + start') len' := by
  refine BitVec.eq_of_getLsbD_eq (fun j hj => ?_)
  have hin : start' + j < len := by omega
  simp [hj, hin, Nat.add_assoc]

/-- The low bits of a byte as a number: VB64's mask. -/
theorem extractLsb_low_toNat (b : Byte) (hi : Nat) : (b.extractLsb hi 0).toNat = b.toNat &&& (2 ^ (hi + 1) - 1) := by
  rw [BitVec.extractLsb_toNat, Nat.and_two_pow_sub_one_eq_mod]
  rfl

/-- The high bits of a byte as a number: VB64's right shift, with nothing cut off. -/
theorem extractLsb_high_toNat (b : Byte) {lo : Nat} (h : lo < 8) : (b.extractLsb 7 lo).toNat = b.toNat >>> lo := by
  have hlt := b.toNat_ushiftRight_lt lo (by omega)
  have hwidth : 8 - lo = 7 - lo + 1 := by omega
  rw [BitVec.toNat_ushiftRight, hwidth] at hlt
  rw [BitVec.extractLsb_toNat, Nat.mod_eq_of_lt hlt]

/-- A sextet across two bytes as a number: VB64's formula. -/
theorem extractLsb_append_toNat (x y : Byte) (hi : Nat) {lo : Nat} (h : lo < 8) :
    (x.extractLsb hi 0 ++ y.extractLsb 7 lo).toNat =
      (x.toNat &&& (2 ^ (hi + 1) - 1)) <<< (7 - lo + 1) ||| y.toNat >>> lo := by
  rw [BitVec.toNat_append, extractLsb_low_toNat, extractLsb_high_toNat y h]

/-- A sextet across two bytes, as VB64 forms it, is the low m bits of the first before the high n bits of the second. -/
theorem setWidth_or_eq_append (x y : Byte) {m n k : Nat} (hk : k + n = 8) (hmn : m + n ≤ 8) :
    (((x &&& (BitVec.allOnes m).setWidth 8) <<< n) ||| (y >>> k)).setWidth (m + n) =
      x.extractLsb' 0 m ++ y.extractLsb' k n := by
  refine BitVec.eq_of_getLsbD_eq (fun j hj => ?_)
  have hj8 : j < 8 := by omega
  simp only [BitVec.getLsbD_setWidth, BitVec.getLsbD_or, BitVec.getLsbD_shiftLeft, BitVec.getLsbD_and,
    BitVec.getLsbD_append, BitVec.getLsbD_ushiftRight, BitVec.getLsbD_extractLsb', BitVec.getLsbD_allOnes]
  by_cases hjn : j < n
  · simp [hjn, hj]
  · have hm : j - n < m := by omega
    have h8 : j - n < 8 := by omega
    have hy : y.getLsbD (k + j) = false := BitVec.getLsbD_of_ge y _ (by omega)
    simp [hjn, hj, hj8, hy, hm, h8]

/-- The last sextet of a group, as VB64 masks it. -/
theorem setWidth_and_eq_extractLsb' (x : Byte) : (x &&& 0b111111#8).setWidth 6 = x.extractLsb' 0 6 := by
  simpa using setWidth_or_eq_append x 0#8 (m := 6) (n := 0) rfl (by omega)

/-- The bit-slice function cuts its 24 bits in order, the most significant first (R35, R60). -/
theorem slice3_eq (b0 b1 b2 : Byte) : slice3 b0 b1 b2 = ⟨b0.extractLsb 7 2, b0.extractLsb 1 0 ++ b1.extractLsb 7 4,
    b1.extractLsb 3 0 ++ b2.extractLsb 7 6, b2.extractLsb 5 0⟩ :=
  (Sextets.mk.injEq ..).mpr ⟨BitVec.setWidth_ushiftRight_eq_extractLsb,
    setWidth_or_eq_append b0 b1 (m := 2) (n := 4) rfl (by omega),
    setWidth_or_eq_append b1 b2 (m := 4) (n := 2) rfl (by omega), setWidth_and_eq_extractLsb' b2⟩

/-- A slice of a lane is a slice of the word (R36). -/
theorem extractLsb_lane (k : Nat) (w : Word) {hi lo : Nat} (hlo : lo ≤ hi) (hhi : hi < 8) :
    (lane k w).extractLsb hi lo = w.extractLsb' (8 * k + lo) (hi - lo + 1) :=
  extractLsb'_extractLsb' w (by omega)

theorem encg3_lanes (w : Word) : encg3 (lane 0 w) (lane 1 w) (lane 2 w) =
    ⟨alpha (w.extractLsb 7 2), alpha (w.extractLsb 1 0 ++ w.extractLsb 15 12),
      alpha (w.extractLsb 11 8 ++ w.extractLsb 23 22), alpha (w.extractLsb 21 16)⟩ := by
  simp (disch := omega) only [encg3, slice3_eq, extractLsb_lane]
  rfl

/-- The third sextet of a 2-byte remainder ends in the zero fill (R62). -/
theorem encg2_lanes (w : Word) : encg2 (lane 0 w) (lane 1 w) =
    ⟨alpha (w.extractLsb 7 2), alpha (w.extractLsb 1 0 ++ w.extractLsb 15 12),
      alpha (w.extractLsb 11 8 ++ 0b00#2), pad⟩ := by
  simp (disch := omega) only [encg2, slice3_eq, extractLsb_lane]
  rfl

/-- The second sextet of a 1-byte remainder ends in the zero fill (R62). -/
theorem encg1_lane (w : Word) : encg1 (lane 0 w) =
    ⟨alpha (w.extractLsb 7 2), alpha (w.extractLsb 1 0 ++ 0b0000#4), pad, pad⟩ := by
  simp (disch := omega) only [encg1, slice3_eq, extractLsb_lane]
  rfl

end Sys2Proof.Machine
end

section
/-! `enc` by position (41_encoder.md R64), and where it puts PAD (R66). -/

namespace Sys2Proof.Machine

/-- Each full group of the input is four characters of the output, so dropping groups before or after `enc` is the same. -/
theorem drop_enc (b : List Byte) (g : Nat) : (enc b).drop (4 * g) = enc (b.drop (3 * g)) := by
  induction g generalizing b with
  | zero => rfl
  | succ g ih =>
    match b with
    | b0 :: b1 :: b2 :: rest => exact ih rest
    | [_, _] | [_] | [] => simp [quadChars, Nat.mul_succ]

/-- The number of PAD characters in the encoding of n bytes (R66). -/
def encPads (n : Nat) : Nat := (3 - n % 3) % 3

theorem encPads_le (n : Nat) : encPads n ≤ 2 := Nat.le_of_lt_succ (Nat.mod_lt _ (by omega))

/-- An encoding is alphabet characters, then its PAD characters. -/
theorem enc_eq_append_pads (b : List Byte) : ∃ u, pad ∉ u ∧ enc b = u ++ List.replicate (encPads b.length) pad := by
  have hne (i : Sextet) : pad ≠ alpha i := (alpha_ne_pad i).symm
  induction b using enc.induct with
  | case1 b0 b1 b2 rest ih =>
    obtain ⟨u, hu, hrest⟩ := ih
    have hpads : encPads (b0 :: b1 :: b2 :: rest).length = encPads rest.length := by
      simp only [encPads, List.length_cons]
      omega
    refine ⟨quadChars (encg3 b0 b1 b2) ++ u, ?_, by rw [enc_group, hrest, hpads, List.append_assoc]⟩
    simp [quadChars, encg3, hne, hu]
  | case2 b0 b1 =>
    exact ⟨[(encg2 b0 b1).c0, (encg2 b0 b1).c1, (encg2 b0 b1).c2], by simp [encg2, hne], rfl⟩
  | case3 b0 => exact ⟨[(encg1 b0).c0, (encg1 b0).c1], by simp [encg1, hne], rfl⟩
  | case4 => exact ⟨[], List.not_mem_nil, rfl⟩

/-- PAD stands in the last positions of an encoding only, as many as it has (R66). -/
theorem enc_getElem?_eq_pad_iff (b : List Byte) (k : Nat) :
    (enc b)[k]? = some pad ↔ (enc b).length ≤ k + encPads b.length ∧ k < (enc b).length := by
  obtain ⟨u, hu, henc⟩ := enc_eq_append_pads b
  rw [henc]
  simp only [List.length_append, List.length_replicate]
  rcases Nat.lt_or_ge k u.length with hk | hk
  · rw [List.getElem?_append_left hk]
    exact iff_of_false (fun h => hu (List.mem_of_getElem? h)) (by omega)
  · rw [List.getElem?_append_right hk, List.getElem?_replicate]
    simp only [Option.ite_none_right_eq_some, and_true]
    omega

theorem enc_ends_two_pads_iff (b : List Byte) : (∃ u, enc b = u ++ [pad, pad]) ↔ encPads b.length = 2 := by
  constructor
  · rintro ⟨v, hv⟩
    obtain ⟨hlast, -⟩ := (enc_getElem?_eq_pad_iff b v.length).1 (by simp [hv])
    have hlen : (enc b).length = v.length + 2 := by rw [hv]; simp
    have hle := encPads_le b.length
    omega
  · intro h
    obtain ⟨u, -, henc⟩ := enc_eq_append_pads b
    exact ⟨u, by rw [henc, h]; rfl⟩

theorem enc_ends_one_pad_iff (b : List Byte) :
    (∃ u c, c ≠ pad ∧ enc b = u ++ [c, pad]) ↔ encPads b.length = 1 := by
  constructor
  · rintro ⟨v, c, hc, hv⟩
    have hlen : (enc b).length = v.length + 2 := by rw [hv]; simp
    obtain ⟨hlast, -⟩ := (enc_getElem?_eq_pad_iff b (v.length + 1)).1 (by simp [hv])
    have hbefore : ¬ (enc b).length ≤ v.length + encPads b.length := by
      intro h
      have hpad := (enc_getElem?_eq_pad_iff b v.length).2 ⟨h, by omega⟩
      rw [hv] at hpad
      exact hc (by simpa using hpad)
    omega
  · intro h
    obtain ⟨u, hu, henc⟩ := enc_eq_append_pads b
    rw [h] at henc
    rcases List.eq_nil_or_concat u with rfl | ⟨v, c, rfl⟩
    · have hlen : encLength b.length = 1 := by rw [← enc_length, henc]; rfl
      unfold encLength at hlen
      omega
    · exact ⟨v, c, fun hc => hu (by simp [hc]), by simp [henc]⟩

theorem pad_not_mem_enc_iff (b : List Byte) : pad ∉ enc b ↔ encPads b.length = 0 := by
  obtain ⟨u, hu, henc⟩ := enc_eq_append_pads b
  simp [henc, hu, List.mem_replicate]

end Sys2Proof.Machine
end

section
/-! The checks of the stream commands one by one (41_encoder.md R71, 42_decoder.md R83, R84), and how ENCODE ends by them. -/

namespace Sys2Proof.Machine

open Sys2Proof.Safety

variable {s : State} {m : Nat} {out : List Byte}

/-- Every stream command checks its input range first (R102). -/
theorem exec_stream_of_input_outside {i : Instr} (hi : isStream i = true)
    (h : s.config.memSize < s.src.toNat + s.len.toNat) : exec i s = .next (raise .invalidArgument s) := by
  have hout : s.insideMem s.srcAddr s.inLen = false := decide_eq_false (Nat.not_le.2 h)
  simp [exec_stream hi, streamVerdict, hout, State.endStream]

theorem outputVerdict_of_outside (h : s.config.memSize < s.dst.toNat + m) :
    outputVerdict s m out = .error .invalidArgument := by
  have hout : s.insideMem s.dstAddr m = false := decide_eq_false (Nat.not_le.2 h)
  simp [outputVerdict, hout]

theorem outputVerdict_of_inside (h : s.dst.toNat + m ≤ s.config.memSize) : outputVerdict s m out =
    if overlaps s.src.toNat s.len.toNat s.dst.toNat m then .error .invalidArgument else .ok (out, m) := by
  have hin : s.insideMem s.dstAddr m = true := decide_eq_true h
  rw [outputVerdict, hin]
  rfl

/-- ENCODE of an input in MEM comes to its output's verdict. -/
theorem exec_encode_of_input_inside (h : s.src.toNat + s.len.toNat ≤ s.config.memSize) :
    exec .encode s = .next (s.endStream (outputVerdict s (encLength s.len.toNat) (enc (input s)))) := by
  have hin : s.insideMem s.srcAddr s.inLen = true := decide_eq_true h
  rw [exec_stream rfl, streamVerdict, hin]
  rfl

theorem exec_encode_of_output_outside (hin : s.src.toNat + s.len.toNat ≤ s.config.memSize)
    (h : s.config.memSize < s.dst.toNat + encLength s.len.toNat) :
    exec .encode s = .next (raise .invalidArgument s) := by
  rw [exec_encode_of_input_inside hin, outputVerdict_of_outside h]
  rfl

theorem exec_encode_of_overlap (hin : s.src.toNat + s.len.toNat ≤ s.config.memSize)
    (hout : s.dst.toNat + encLength s.len.toNat ≤ s.config.memSize)
    (h : overlaps s.src.toNat s.len.toNat s.dst.toNat (encLength s.len.toNat) = true) :
    exec .encode s = .next (raise .invalidArgument s) := by
  rw [exec_encode_of_input_inside hin, outputVerdict_of_inside hout, h]
  rfl

theorem exec_encode_of_disjoint (hin : s.src.toNat + s.len.toNat ≤ s.config.memSize)
    (hout : s.dst.toNat + encLength s.len.toNat ≤ s.config.memSize)
    (h : overlaps s.src.toNat s.len.toNat s.dst.toNat (encLength s.len.toNat) = false) :
    exec .encode s =
      .next (succeedStream (encLength s.len.toNat) (s.writeRange s.dst.toNat (enc (input s)))) := by
  rw [exec_encode_of_input_inside hin, outputVerdict_of_inside hout, h]
  rfl

end Sys2Proof.Machine
end

section
/-! The obligations of 41_encoder.md. -/

namespace Sys2Proof.Proofs

open Sys2Proof.Machine Sys2Proof.Safety

/-- Settles O13: the sextets of DIN's three lanes are slices of DIN. -/
theorem enc3EncodesAFullGroup : Obligations.Enc3EncodesAFullGroup := by
  refine ⟨decode_encode .enc3, fun s => ?_⟩
  rw [exec_group rfl, groupVerdict, encg3_lanes, packLanes_eq_append]
  rfl

/-- Settles O14: with a third byte of 0 the last sextet ends in two zero bits. -/
theorem enc2EncodesATwoByteRemainder : Obligations.Enc2EncodesATwoByteRemainder := by
  refine ⟨decode_encode .enc2, fun s => ?_⟩
  rw [exec_group rfl, groupVerdict, encg2_lanes, packLanes_eq_append]
  rfl

/-- Settles O15: with a second byte of 0 the last sextet ends in four zero bits; the two PADs are one 16-bit value. -/
theorem enc1EncodesAOneByteRemainder : Obligations.Enc1EncodesAOneByteRemainder := by
  refine ⟨decode_encode .enc1, fun s => ?_⟩
  have hpads (x : BitVec 16) : pad ++ (pad ++ x) = 0x3D3D#16 ++ x :=
    (BitVec.append_assoc (x₁ := pad) (x₂ := pad)).symm
  rw [exec_group rfl, groupVerdict, encg1_lane, packLanes_eq_append, hpads]
  rfl

/-- Settles O19: a slice across two bytes is a shifted sum of masked and shifted bytes, with nothing cut off. -/
theorem sliceThreeIsTheBitSlice : Obligations.SliceThreeIsTheBitSlice := by
  intro b0 b1 b2
  rw [slice3_eq]
  exact ⟨extractLsb_high_toNat b0 (by omega), extractLsb_append_toNat b0 b1 1 (by omega),
    extractLsb_append_toNat b1 b2 3 (by omega), extractLsb_low_toNat b2 5, rfl⟩

/-- Settles O21: past g groups the output is `enc` of the input past g groups, which begins with the next group, or is the
remainder. -/
theorem encMapsGroupsThenTheRemainder : Obligations.EncMapsGroupsThenTheRemainder := by
  intro b
  refine ⟨fun g h => ?_, fun q h => ?_, fun q h => ?_, fun q h => ?_⟩
  · rw [drop_enc, List.drop_eq_getElem_cons (by omega), List.drop_eq_getElem_cons (by omega),
      List.drop_eq_getElem_cons h]
    rfl
  · rw [drop_enc, List.drop_eq_getElem_cons (by omega), List.drop_of_length_le (by omega), enc_one]
  · rw [drop_enc, List.drop_eq_getElem_cons (by omega), List.drop_eq_getElem_cons (by omega),
      List.drop_of_length_le (by omega), enc_two]
  · rw [drop_enc, List.drop_of_length_le (by omega), enc_nil]

/-- Settles O22: the length law is the length ENCODE computes. -/
theorem encLengthLaw : Obligations.EncLengthLaw :=
  ⟨enc_length, enc_nil⟩

/-- Settles O23: the number of PAD characters tells the three endings apart, and is found from the length modulo 3. -/
theorem encPaddingLaw : Obligations.EncPaddingLaw := by
  intro b
  have htwo : encPads b.length = 2 ↔ b.length % 3 = 1 := by unfold encPads; omega
  have hone : encPads b.length = 1 ↔ b.length % 3 = 2 := by unfold encPads; omega
  have hzero : encPads b.length = 0 ↔ b.length % 3 = 0 := by unfold encPads; omega
  refine ⟨(enc_ends_two_pads_iff b).trans htwo, (enc_ends_one_pad_iff b).trans hone,
    (pad_not_mem_enc_iff b).trans hzero, fun k hk => ?_⟩
  obtain ⟨hlast, hlt⟩ := (enc_getElem?_eq_pad_iff b k).1 hk
  omega

/-- Settles O31: the checks in order, and after them the stores of the output range alone. -/
theorem encodeEncodesABuffer : Obligations.EncodeEncodesABuffer := by
  refine ⟨decode_encode .encode, fun s => ⟨exec_stream_of_input_outside rfl, exec_encode_of_output_outside,
    fun hin hd hov => exec_encode_of_overlap hin hd ((overlaps_eq_true ..).2 hov), fun hin hd hov => ?_⟩⟩
  have hdisjoint := Bool.eq_false_iff.2 ((overlaps_eq_true ..).not.2 hov)
  have hlen : (enc (input s)).length = encLength s.len.toNat := by rw [enc_length, input_length]
  refine ⟨_, exec_encode_of_disjoint hin hd hdisjoint, rfl, fun k hk => ?_,
    fun x hx => readByte_writeRange_outside s _ _ x (by rwa [hlen])⟩
  have hout : k < (enc (input s)).length := hlen ▸ hk
  rw [readByte_succeedStream, readByte_writeRange_inside s _ _ k hout, List.getElem?_eq_getElem hout]

end Sys2Proof.Proofs
end

section
/-! The blocks of a valid string, VB64's regular expression, and where PAD stands (42_decoder.md R73, R75). -/

namespace Sys2Proof.Machine

open Sys2Proof.Safety

/-- The final-group shapes as propositions (R73). -/
theorem vgroup_iff (q : Quad) : vgroup q = true ↔ isAlpha q.c0 = true ∧ isAlpha q.c1 = true ∧
    ((isAlpha q.c2 = true ∧ isAlpha q.c3 = true) ∨ (isAlpha q.c2 = true ∧ q.c3 = pad) ∨ (q.c2 = pad ∧ q.c3 = pad)) := by
  simp [vgroup, and_assoc, or_assoc]

/-- Before its last block a valid string is whole blocks of alphabet characters (R73). -/
theorem valid_append_block_iff (u : List Byte) (c0 c1 c2 c3 : Byte) : valid (u ++ [c0, c1, c2, c3]) = true ↔
    u.length % 4 = 0 ∧ (∀ c ∈ u, isAlpha c = true) ∧ vgroup ⟨c0, c1, c2, c3⟩ = true := by
  simp [valid, finalGroupOk, and_assoc]

theorem length_mod_four_of_valid {t : List Byte} (h : valid t = true) : t.length % 4 = 0 := by
  simp only [valid, Bool.and_eq_true, beq_iff_eq] at h
  obtain ⟨⟨hmod, -⟩, -⟩ := h
  exact hmod

/-- A sequence of whole blocks is empty, or ends with one. -/
theorem eq_nil_or_append_block {t : List Byte} (h : t.length % 4 = 0) :
    t = [] ∨ ∃ u c0 c1 c2 c3, t = u ++ [c0, c1, c2, c3] := by
  rcases Nat.lt_or_ge t.length 4 with hlt | hge
  · exact .inl (List.eq_nil_of_length_eq_zero (by omega))
  · have hlast : (t.drop (t.length - 4)).length = 4 := by rw [List.length_drop]; omega
    obtain ⟨c0, c1, c2, c3, hblock⟩ := List.length_eq_four.1 hlast
    exact .inr ⟨t.take (t.length - 4), c0, c1, c2, c3, by rw [← hblock, List.take_append_drop]⟩

/-- The groups of the regular expression are whole blocks of alphabet characters (R73). -/
theorem alphaGroups_iff (u : List Byte) : AlphaGroups u ↔ u.length % 4 = 0 ∧ ∀ c ∈ u, isAlpha c = true := by
  constructor
  · intro h
    induction h with
    | none => simp
    | group h0 h1 h2 h3 _ ih => simpa [Nat.add_assoc, h0, h1, h2, h3] using ih
  · rintro ⟨hmod, hall⟩
    induction u using dec.induct with
    | case1 c0 c1 c2 c3 rest ih =>
      simp only [List.forall_mem_cons] at hall
      obtain ⟨h0, h1, h2, h3, hrest⟩ := hall
      exact .group h0 h1 h2 h3 (ih (by simpa [Nat.add_assoc] using hmod) hrest)
    | case2 u hshape =>
      match u, hmod with
      | [], _ => exact .none
      | c0 :: c1 :: c2 :: c3 :: rest, _ => exact (hshape c0 c1 c2 c3 rest rfl).elim

/-- A valid string's last block is the regular expression's tail, or its last group (R73). -/
theorem valid_iff_grammar (t : List Byte) : valid t = true ↔ Grammar t := by
  constructor
  · intro h
    obtain rfl | ⟨u, c0, c1, c2, c3, rfl⟩ := eq_nil_or_append_block (length_mod_four_of_valid h)
    · exact ⟨[], [], .none, .none, rfl⟩
    · obtain ⟨hmod, hall, hlast⟩ := (valid_append_block_iff ..).1 h
      obtain ⟨h0, h1, ⟨h2, h3⟩ | ⟨h2, rfl⟩ | ⟨rfl, rfl⟩⟩ := (vgroup_iff _).1 hlast
      · refine ⟨u ++ [c0, c1, c2, c3], [], (alphaGroups_iff _).2 ⟨by simpa using hmod, ?_⟩, .none, by simp⟩
        simpa [or_imp, forall_and, h0, h1, h2, h3] using hall
      · exact ⟨u, _, (alphaGroups_iff u).2 ⟨hmod, hall⟩, .one h0 h1 h2, rfl⟩
      · exact ⟨u, _, (alphaGroups_iff u).2 ⟨hmod, hall⟩, .two h0 h1, rfl⟩
  · rintro ⟨u, v, hu, hv, rfl⟩
    obtain ⟨hmod, hall⟩ := (alphaGroups_iff u).1 hu
    cases hv with
    | none =>
      rw [List.append_nil]
      obtain rfl | ⟨u, c0, c1, c2, c3, rfl⟩ := eq_nil_or_append_block hmod
      · rfl
      · simp only [List.forall_mem_append, List.forall_mem_cons] at hall
        obtain ⟨hfront, h0, h1, h2, h3, -⟩ := hall
        exact (valid_append_block_iff ..).2 ⟨by simpa using hmod, hfront, (vgroup_iff _).2 ⟨h0, h1, .inl ⟨h2, h3⟩⟩⟩
    | two h0 h1 => exact (valid_append_block_iff ..).2 ⟨hmod, hall, (vgroup_iff _).2 ⟨h0, h1, .inr (.inr ⟨rfl, rfl⟩)⟩⟩
    | one h0 h1 h2 => exact (valid_append_block_iff ..).2 ⟨hmod, hall, (vgroup_iff _).2 ⟨h0, h1, .inr (.inl ⟨h2, rfl⟩)⟩⟩

/-- A group of alphabet characters may stand before any valid string (R73). -/
theorem valid_cons_block {c0 c1 c2 c3 : Byte} {rest : List Byte} (h0 : isAlpha c0 = true) (h1 : isAlpha c1 = true)
    (h2 : isAlpha c2 = true) (h3 : isAlpha c3 = true) (hrest : valid rest = true) :
    valid (c0 :: c1 :: c2 :: c3 :: rest) = true := by
  obtain ⟨u, v, hu, hv, rfl⟩ := (valid_iff_grammar rest).1 hrest
  exact (valid_iff_grammar _).2 ⟨_, v, .group h0 h1 h2 h3 hu, hv, rfl⟩

theorem pads_of_pad_not_mem {t : List Byte} (h : pad ∉ t) : pads t = 0 := by
  unfold pads
  split
  · rename_i last before front hrev
    have hlast : last ∈ t := List.mem_reverse.1 (hrev ▸ List.mem_cons_self)
    exact if_pos (ne_of_mem_of_not_mem hlast h)
  · rfl

/-- A valid string is alphabet characters, then its PAD characters (R75). -/
theorem eq_append_pads_of_valid {t : List Byte} (h : valid t = true) :
    ∃ u, (∀ c ∈ u, isAlpha c = true) ∧ t = u ++ List.replicate (pads t) pad := by
  obtain ⟨u, v, hu, hv, rfl⟩ := (valid_iff_grammar t).1 h
  obtain ⟨-, hall⟩ := (alphaGroups_iff u).1 hu
  cases hv with
  | none =>
    rw [List.append_nil, pads_of_pad_not_mem (fun hpad => ne_pad_of_isAlpha (hall _ hpad) rfl)]
    exact ⟨u, hall, (List.append_nil u).symm⟩
  | @two c0 c1 h0 h1 =>
    have hpads : pads (u ++ [c0, c1, pad, pad]) = 2 := by simp [pads]
    rw [hpads]
    exact ⟨u ++ [c0, c1], by simpa [or_imp, forall_and, h0, h1] using hall, by simp⟩
  | @one c0 c1 c2 h0 h1 h2 =>
    have hpads : pads (u ++ [c0, c1, c2, pad]) = 1 := by simp [pads, ne_pad_of_isAlpha h2]
    rw [hpads]
    exact ⟨u ++ [c0, c1, c2], by simpa [or_imp, forall_and, h0, h1, h2] using hall, by simp⟩

end Sys2Proof.Machine
end


section
/-! The reconstructor as bit slices, and that it and slice3 undo each other (42_decoder.md R77, R86). -/

namespace Sys2Proof.Machine

/-- A byte across two sextets, as VB64 forms it, is the low m bits of the first before the high n bits of the second. -/
theorem shiftLeft_or_ushiftRight_eq_append (x y : Sextet) {m n k : Nat} (hk : k + n = 6) (hmn : m + n = 8) :
    ((x.setWidth 8 &&& (BitVec.allOnes m).setWidth 8) <<< n) ||| (y.setWidth 8 >>> k) =
      (x.extractLsb' 0 m ++ y.extractLsb' k n).cast hmn := by
  refine BitVec.eq_of_getLsbD_eq (fun j hj => ?_)
  simp only [BitVec.getLsbD_or, BitVec.getLsbD_shiftLeft, BitVec.getLsbD_and, BitVec.getLsbD_setWidth,
    BitVec.getLsbD_ushiftRight, BitVec.getLsbD_cast, BitVec.getLsbD_append, BitVec.getLsbD_extractLsb',
    BitVec.getLsbD_allOnes]
  by_cases hjn : j < n
  · have hk8 : k + j < 8 := by omega
    simp [hjn, hk8]
  · have hm : j - n < m := by omega
    have h8 : j - n < 8 := by omega
    have hy : y.getLsbD (k + j) = false := BitVec.getLsbD_of_ge y _ (by omega)
    simp [hjn, hj, hy, hm, h8]

/-- VB64's mask of six bits keeps a sextet. -/
theorem setWidth_and_allOnes (i : Sextet) : i.setWidth 8 &&& (BitVec.allOnes 6).setWidth 8 = i.setWidth 8 := by
  rw [← BitVec.setWidth_and, BitVec.and_allOnes]

/-- The reconstructor joins its 24 bits in order, the most significant first (R35, R77). -/
theorem reconstruct_eq (i0 i1 i2 i3 : Sextet) : reconstruct i0 i1 i2 i3 =
    ⟨i0 ++ i1.extractLsb 5 4, i1.extractLsb 3 0 ++ i2.extractLsb 5 2, i2.extractLsb 1 0 ++ i3⟩ := by
  have h0 := shiftLeft_or_ushiftRight_eq_append i0 i1 (m := 6) (n := 2) rfl rfl
  have h1 := shiftLeft_or_ushiftRight_eq_append i1 i2 (m := 4) (n := 4) rfl rfl
  have h2 := shiftLeft_or_ushiftRight_eq_append i2 i3 (m := 2) (n := 6) rfl rfl
  rw [setWidth_and_allOnes, BitVec.extractLsb'_eq_self] at h0
  rw [← setWidth_and_allOnes i3, BitVec.extractLsb'_eq_self] at h2
  exact (Triple.mk.injEq ..).mpr ⟨h0, h1, h2⟩

/-- The low bits of a word of any width as a number: VB64's mask. -/
theorem extractLsb_zero_toNat {w : Nat} (x : BitVec w) (hi : Nat) :
    (x.extractLsb hi 0).toNat = x.toNat &&& (2 ^ (hi + 1) - 1) := by
  rw [BitVec.extractLsb_toNat, Nat.and_two_pow_sub_one_eq_mod]
  rfl

/-- The high bits of a word of any width as a number: VB64's right shift, with nothing cut off. -/
theorem extractLsb_top_toNat {w : Nat} (x : BitVec (w + 1)) {lo : Nat} (h : lo ≤ w) :
    (x.extractLsb w lo).toNat = x.toNat >>> lo := by
  have hlt := x.toNat_ushiftRight_lt lo (by omega)
  rw [BitVec.toNat_ushiftRight, Nat.sub_add_comm h] at hlt
  rw [BitVec.extractLsb_toNat, Nat.mod_eq_of_lt hlt]

/-- The reconstructor gives back the bytes that slice3 cut (R86). -/
theorem reconstruct_slice3 (b0 b1 b2 : Byte) : reconstruct (slice3 b0 b1 b2).s0 (slice3 b0 b1 b2).s1
    (slice3 b0 b1 b2).s2 (slice3 b0 b1 b2).s3 = ⟨b0, b1, b2⟩ := by
  rw [slice3_eq, reconstruct_eq, Triple.mk.injEq]
  simp only [BitVec.extractLsb]
  refine ⟨?_, ?_, ?_⟩
  · rw [BitVec.extractLsb'_append_eq_left]
    exact BitVec.extractLsb'_append_extractLsb' (w := 6)
  · rw [BitVec.extractLsb'_append_eq_left, BitVec.extractLsb'_append_eq_right]
    exact BitVec.extractLsb'_append_extractLsb' (w := 4)
  · rw [BitVec.extractLsb'_append_eq_right]
    exact BitVec.extractLsb'_append_extractLsb' (w := 2)

/-- The bit-slice function gives back the sextets that the reconstructor joined. -/
theorem slice3_reconstruct (i0 i1 i2 i3 : Sextet) : slice3 (reconstruct i0 i1 i2 i3).o0 (reconstruct i0 i1 i2 i3).o1
    (reconstruct i0 i1 i2 i3).o2 = ⟨i0, i1, i2, i3⟩ := by
  rw [reconstruct_eq, slice3_eq, Sextets.mk.injEq]
  simp only [BitVec.extractLsb]
  refine ⟨BitVec.extractLsb'_append_eq_left, ?_, ?_, BitVec.extractLsb'_append_eq_right⟩
  · rw [BitVec.extractLsb'_append_eq_right, BitVec.extractLsb'_append_eq_left]
    exact BitVec.extractLsb'_append_extractLsb' (w := 2)
  · rw [BitVec.extractLsb'_append_eq_right, BitVec.extractLsb'_append_eq_left]
    exact BitVec.extractLsb'_append_extractLsb' (w := 4)

/-- The first byte takes the top two bits of the second sextet only (R77). -/
theorem reconstruct_o0_congr {i1 i1' : Sextet} (h : i1' >>> 4 = i1 >>> 4) (i0 i2 i3 : Sextet) :
    (reconstruct i0 i1' i2 i3).o0 = (reconstruct i0 i1 i2 i3).o0 := by
  simp only [reconstruct, ← BitVec.setWidth_ushiftRight (w := 6) (i := 8) (by omega), h]

/-- The first two bytes take the top four bits of the third sextet only (R77). -/
theorem reconstruct_o1_congr {i2 i2' : Sextet} (h : i2' >>> 2 = i2 >>> 2) (i0 i1 i3 : Sextet) :
    (reconstruct i0 i1 i2' i3).o1 = (reconstruct i0 i1 i2 i3).o1 := by
  simp only [reconstruct, ← BitVec.setWidth_ushiftRight (w := 6) (i := 8) (by omega), h]

/-- The first two bytes are those of a group whose third sextet ends in 00, as the zero fill has it (R62). -/
theorem slice3_two_bytes (i0 i1 i2 i3 : Sextet) :
    slice3 (reconstruct i0 i1 i2 i3).o0 (reconstruct i0 i1 i2 i3).o1 0x00#8 =
      ⟨i0, i1, i2.extractLsb 5 2 ++ 0b00#2, 0#6⟩ := by
  rw [← slice3_reconstruct i0 i1 (i2.extractLsb 5 2 ++ 0b00#2) 0#6]
  simp only [reconstruct_eq, BitVec.extractLsb]
  rw [BitVec.extractLsb'_append_eq_left, BitVec.extractLsb'_append_eq_right]
  rfl

/-- The first byte is that of a group whose second sextet ends in 0000, as the zero fill has it (R62). -/
theorem slice3_one_byte (i0 i1 i2 i3 : Sextet) : slice3 (reconstruct i0 i1 i2 i3).o0 0x00#8 0x00#8 =
    ⟨i0, i1.extractLsb 5 4 ++ 0b0000#4, 0#6, 0#6⟩ := by
  rw [← slice3_reconstruct i0 (i1.extractLsb 5 4 ++ 0b0000#4) 0#6 0#6]
  simp only [reconstruct_eq, BitVec.extractLsb]
  rw [BitVec.extractLsb'_append_eq_left, BitVec.extractLsb'_append_eq_right]
  rfl

end Sys2Proof.Machine
end

section
/-! One block by its shape: its bytes, DECG's word, and the block that the encoders make of its bytes (42_decoder.md
R79 to R82, R85). -/

namespace Sys2Proof.Machine

/-- PAD's entry in RLUT is (0, 0), so its index is 0 as well (R13, R79). -/
theorem charIndex_eq (c : Byte) : charIndex c = (rlut c).idx := by
  unfold charIndex
  split
  · next h => rw [h]; rfl
  · rfl

theorem blockTriple_eq (q : Quad) :
    blockTriple q = reconstruct (rlut q.c0).idx (rlut q.c1).idx (rlut q.c2).idx (rlut q.c3).idx := by
  simp only [blockTriple, charIndex_eq]

variable {q : Quad}

theorem blockCount_eq_three (h : q.c3 ≠ pad) : blockCount q = 3 := if_pos h

theorem blockCount_eq_two (h2 : q.c2 ≠ pad) (h3 : q.c3 = pad) : blockCount q = 2 := by
  simp [blockCount, h2, h3]

theorem blockCount_eq_one (h2 : q.c2 = pad) (h3 : q.c3 = pad) : blockCount q = 1 := by
  simp [blockCount, h2, h3]

theorem blockBytes_of_no_pad (h : q.c3 ≠ pad) :
    blockBytes q = [(blockTriple q).o0, (blockTriple q).o1, (blockTriple q).o2] := by
  rw [blockBytes, blockCount_eq_three h]
  rfl

theorem blockBytes_of_one_pad (h2 : q.c2 ≠ pad) (h3 : q.c3 = pad) :
    blockBytes q = [(blockTriple q).o0, (blockTriple q).o1] := by
  rw [blockBytes, blockCount_eq_two h2 h3]
  rfl

theorem blockBytes_of_two_pads (h2 : q.c2 = pad) (h3 : q.c3 = pad) : blockBytes q = [(blockTriple q).o0] := by
  rw [blockBytes, blockCount_eq_one h2 h3]
  rfl

/-- DECG's word has the block's bytes in its low lanes and 0 in the others (R82). -/
theorem blockWord_eq_packLanes (q : Quad) : blockWord q = packLanes ⟨(blockTriple q).o0,
    if 2 ≤ blockCount q then (blockTriple q).o1 else 0x00#8, if blockCount q = 3 then (blockTriple q).o2 else 0x00#8,
    0x00#8⟩ := by
  simp only [blockWord, packLanes]
  split_ifs <;> simp

theorem blockWord_of_no_pad (h : q.c3 ≠ pad) :
    blockWord q = 0x00#8 ++ ((blockTriple q).o2 ++ ((blockTriple q).o1 ++ (blockTriple q).o0)) := by
  rw [blockWord_eq_packLanes, packLanes_eq_append, blockCount_eq_three h]
  rfl

theorem blockWord_of_one_pad (h2 : q.c2 ≠ pad) (h3 : q.c3 = pad) :
    blockWord q = 0x0000#16 ++ ((blockTriple q).o1 ++ (blockTriple q).o0) := by
  rw [blockWord_eq_packLanes, packLanes_eq_append, blockCount_eq_two h2 h3]
  exact (BitVec.append_assoc (x₁ := 0x00#8) (x₂ := 0x00#8)).symm

theorem blockWord_of_two_pads (h2 : q.c2 = pad) (h3 : q.c3 = pad) :
    blockWord q = 0x000000#24 ++ (blockTriple q).o0 := by
  calc blockWord q = 0x00#8 ++ (0x00#8 ++ (0x00#8 ++ (blockTriple q).o0)) := by
        rw [blockWord_eq_packLanes, packLanes_eq_append, blockCount_eq_one h2 h3]
        rfl
    _ = 0x0000#16 ++ (0x00#8 ++ (blockTriple q).o0) := (BitVec.append_assoc (x₁ := 0x00#8) (x₂ := 0x00#8)).symm
    _ = 0x000000#24 ++ (blockTriple q).o0 := (BitVec.append_assoc (x₁ := 0x0000#16) (x₂ := 0x00#8)).symm

theorem blockTriple_encg3 (b0 b1 b2 : Byte) : blockTriple (encg3 b0 b1 b2) = ⟨b0, b1, b2⟩ := by
  simp only [blockTriple_eq, encg3, rlut_alpha]
  exact reconstruct_slice3 b0 b1 b2

/-- PAD's index 0 is the sextet that the zero fill makes of a missing byte (R62). -/
theorem blockTriple_encg2 (b0 b1 : Byte) : blockTriple (encg2 b0 b1) = ⟨b0, b1, 0x00#8⟩ := by
  simp only [blockTriple_eq, encg2, rlut_alpha]
  exact reconstruct_slice3 b0 b1 0x00#8

theorem blockTriple_encg1 (b0 : Byte) : blockTriple (encg1 b0) = ⟨b0, 0x00#8, 0x00#8⟩ := by
  simp only [blockTriple_eq, encg1, rlut_alpha]
  exact reconstruct_slice3 b0 0x00#8 0x00#8

theorem vgroup_encg3 (b0 b1 b2 : Byte) : vgroup (encg3 b0 b1 b2) = true := by
  simp [vgroup, encg3]

theorem vgroup_encg2 (b0 b1 : Byte) : vgroup (encg2 b0 b1) = true := by
  simp [vgroup, encg2]

theorem vgroup_encg1 (b0 : Byte) : vgroup (encg1 b0) = true := by
  simp [vgroup, encg1]

@[simp] theorem blockBytes_encg3 (b0 b1 b2 : Byte) : blockBytes (encg3 b0 b1 b2) = [b0, b1, b2] := by
  rw [blockBytes_of_no_pad (alpha_ne_pad _), blockTriple_encg3]

@[simp] theorem blockBytes_encg2 (b0 b1 : Byte) : blockBytes (encg2 b0 b1) = [b0, b1] := by
  rw [blockBytes_of_one_pad (alpha_ne_pad _) rfl, blockTriple_encg2]

@[simp] theorem blockBytes_encg1 (b0 : Byte) : blockBytes (encg1 b0) = [b0] := by
  rw [blockBytes_of_two_pads rfl rfl, blockTriple_encg1]

/-- An alphabet character is the ALPHA entry of its index only (R14). -/
theorem alpha_eq_iff {c : Byte} (h : isAlpha c = true) (i : Sextet) : alpha i = c ↔ i = (rlut c).idx := by
  constructor
  · rintro rfl
    rw [rlut_alpha]
  · rintro rfl
    exact alpha_rlut_idx h

variable {c0 c1 c2 c3 : Byte} (h0 : isAlpha c0 = true) (h1 : isAlpha c1 = true)

include h0 h1

/-- A full group encodes back to itself. -/
theorem encg3_blockTriple (h2 : isAlpha c2 = true) (h3 : isAlpha c3 = true) :
    encg3 (blockTriple ⟨c0, c1, c2, c3⟩).o0 (blockTriple ⟨c0, c1, c2, c3⟩).o1 (blockTriple ⟨c0, c1, c2, c3⟩).o2 =
      ⟨c0, c1, c2, c3⟩ := by
  simp only [encg3, blockTriple_eq, slice3_reconstruct, alpha_rlut_idx h0, alpha_rlut_idx h1, alpha_rlut_idx h2,
    alpha_rlut_idx h3]

/-- The block `XXX=` encodes back to itself iff the bits it discards are 0 (R85). -/
theorem encg2_blockTriple_iff (h2 : isAlpha c2 = true) :
    encg2 (blockTriple ⟨c0, c1, c2, pad⟩).o0 (blockTriple ⟨c0, c1, c2, pad⟩).o1 = ⟨c0, c1, c2, pad⟩ ↔
      (rlut c2).idx &&& 0b11#6 = 0#6 := by
  have hfill (i : Sextet) : (i.extractLsb 5 2 ++ 0b00#2 : Sextet) = i ↔ i &&& 0b11#6 = 0#6 := by
    revert i
    decide
  simp only [encg2, blockTriple_eq, slice3_two_bytes, Quad.mk.injEq, alpha_rlut_idx h0, alpha_rlut_idx h1,
    alpha_eq_iff h2, hfill, true_and, and_true]

/-- The block `XX==` encodes back to itself iff the bits it discards are 0 (R85). -/
theorem encg1_blockTriple_iff :
    encg1 (blockTriple ⟨c0, c1, pad, pad⟩).o0 = ⟨c0, c1, pad, pad⟩ ↔ (rlut c1).idx &&& 0b1111#6 = 0#6 := by
  have hfill (i : Sextet) : (i.extractLsb 5 4 ++ 0b0000#4 : Sextet) = i ↔ i &&& 0b1111#6 = 0#6 := by
    revert i
    decide
  simp only [encg1, blockTriple_eq, slice3_one_byte, Quad.mk.injEq, alpha_rlut_idx h0, alpha_eq_iff h1, hfill,
    true_and, and_true]

end Sys2Proof.Machine
end

section
/-! `dec` by position (42_decoder.md R81), and `dec` and `enc` one after the other (R85, R86). -/

namespace Sys2Proof.Machine

open Sys2Proof.Safety

theorem dec_append {u : List Byte} (hu : AlphaGroups u) (v : List Byte) : dec (u ++ v) = dec u ++ dec v := by
  induction hu with
  | none => rfl
  | group _ _ _ _ _ ih => simp only [List.cons_append, dec_block, ih, List.append_assoc]

theorem quadChars_eq_iff (q : Quad) (c0 c1 c2 c3 : Byte) : quadChars q = [c0, c1, c2, c3] ↔ q = ⟨c0, c1, c2, c3⟩ := by
  obtain ⟨d0, d1, d2, d3⟩ := q
  simp [quadChars]

/-- One block of a final-group shape is a valid string (R73). -/
theorem valid_quadChars {q : Quad} (h : vgroup q = true) : valid (quadChars q) = true :=
  (valid_append_block_iff [] ..).2 ⟨rfl, List.forall_mem_nil _, h⟩

theorem dec_quadChars_append (q : Quad) (t : List Byte) : dec (quadChars q ++ t) = blockBytes q ++ dec t := rfl

theorem dec_quadChars (q : Quad) : dec (quadChars q) = blockBytes q := List.append_nil _

/-- Every block before the last has three bytes, so dropping blocks before or after `dec` is the same. -/
theorem drop_dec {t : List Byte} {g : Nat} (h : valid t = true) (hg : 4 * g < t.length) :
    valid (t.drop (4 * g)) = true ∧ (dec t).drop (3 * g) = dec (t.drop (4 * g)) := by
  induction g generalizing t with
  | zero => exact ⟨h, rfl⟩
  | succ g ih =>
    obtain rfl | ⟨c0, c1, c2, c3, rest, rfl⟩ := eq_nil_or_block_of_valid h
    · cases hg
    · have hrest : 4 * g < rest.length := by simp only [List.length_cons] at hg; omega
      obtain ⟨h3, hvalid⟩ := valid_block_append (List.ne_nil_of_length_pos (by omega)) h
      rw [dec_block, blockBytes_of_no_pad (ne_pad_of_isAlpha h3)]
      exact ih hvalid hrest

/-- The first block of a valid string gives the first bytes, three or all there are (R81). -/
theorem take_dec_block {c0 c1 c2 c3 : Byte} {rest : List Byte} (h : valid (c0 :: c1 :: c2 :: c3 :: rest) = true) :
    (dec (c0 :: c1 :: c2 :: c3 :: rest)).take 3 = blockBytes ⟨c0, c1, c2, c3⟩ := by
  rw [dec_block]
  by_cases hr : rest = []
  · subst hr
    rw [dec_nil, List.append_nil]
    exact List.take_of_length_le ((blockBytes_length _).trans_le (blockCount_le _))
  · obtain ⟨h3, -⟩ := valid_block_append hr h
    exact List.take_left' (by rw [blockBytes_length, blockCount_eq_three (ne_pad_of_isAlpha h3)])

/-- A last block of a final-group shape with the same bytes may stand in for another (R85). -/
theorem valid_and_dec_replace_last {u : List Byte} {c0 c1 c2 c3 d0 d1 d2 d3 : Byte}
    (h : valid (u ++ [c0, c1, c2, c3]) = true) (hshape : vgroup ⟨d0, d1, d2, d3⟩ = true)
    (hbytes : blockBytes ⟨d0, d1, d2, d3⟩ = blockBytes ⟨c0, c1, c2, c3⟩) :
    valid (u ++ [d0, d1, d2, d3]) = true ∧ dec (u ++ [d0, d1, d2, d3]) = dec (u ++ [c0, c1, c2, c3]) := by
  obtain ⟨hmod, hall, -⟩ := (valid_append_block_iff ..).1 h
  have hu := (alphaGroups_iff u).2 ⟨hmod, hall⟩
  exact ⟨(valid_append_block_iff ..).2 ⟨hmod, hall, hshape⟩, by
    rw [dec_append hu, dec_append hu, dec_block, dec_block, hbytes]⟩

/-- The encoding of a buffer is a valid string that decodes to it (R86). -/
theorem valid_enc_and_dec_enc (b : List Byte) : valid (enc b) = true ∧ dec (enc b) = b := by
  induction b using enc.induct with
  | case1 b0 b1 b2 rest ih =>
    obtain ⟨hvalid, hdec⟩ := ih
    refine ⟨valid_cons_block (isAlpha_alpha _) (isAlpha_alpha _) (isAlpha_alpha _) (isAlpha_alpha _) hvalid, ?_⟩
    rw [enc_group, dec_quadChars_append, blockBytes_encg3, hdec]
    rfl
  | case2 b0 b1 => exact ⟨valid_quadChars (vgroup_encg2 b0 b1), (dec_quadChars _).trans (blockBytes_encg2 b0 b1)⟩
  | case3 b0 => exact ⟨valid_quadChars (vgroup_encg1 b0), (dec_quadChars _).trans (blockBytes_encg1 b0)⟩
  | case4 => exact ⟨rfl, rfl⟩

/-- Full groups of alphabet characters are restored by encoding what they decode to. -/
theorem enc_dec_append {u : List Byte} (hu : AlphaGroups u) (v : List Byte) :
    enc (dec (u ++ v)) = u ++ enc (dec v) := by
  induction hu with
  | none => rfl
  | @group c0 c1 c2 c3 rest h0 h1 h2 h3 _ ih =>
    have hblock := encg3_blockTriple h0 h1 h2 h3
    simp only [List.cons_append, dec_block, blockBytes_of_no_pad (q := ⟨c0, c1, c2, c3⟩) (ne_pad_of_isAlpha h3),
      List.nil_append, enc_group, hblock, ih]
    rfl

/-- The discarded bits are looked for in the last block only (R85). -/
theorem discardedBitsZero_append_block (u : List Byte) (c0 c1 c2 c3 : Byte) :
    DiscardedBitsZero (u ++ [c0, c1, c2, c3]) ↔ (c3 = pad →
      (c2 = pad → (rlut c1).idx &&& 0b1111#6 = 0#6) ∧ (c2 ≠ pad → (rlut c2).idx &&& 0b11#6 = 0#6)) := by
  constructor
  · intro h
    exact h c0 c1 c2 c3 (List.suffix_append ..)
  · rintro h d0 d1 d2 d3 ⟨w, hw⟩
    obtain ⟨-, hblock⟩ := List.append_inj' hw rfl
    cases hblock
    exact h

/-- A valid string is restored by encoding what it decodes to iff its discarded bits are 0 (R85). -/
theorem enc_dec_eq_iff {t : List Byte} (h : valid t = true) : enc (dec t) = t ↔ DiscardedBitsZero t := by
  obtain ⟨u, v, hu, hv, rfl⟩ := (valid_iff_grammar t).1 h
  rw [enc_dec_append hu, List.append_cancel_left_eq]
  cases hv with
  | none =>
    obtain ⟨-, hall⟩ := (alphaGroups_iff u).1 hu
    refine iff_of_true rfl (fun c0 c1 c2 c3 hsuffix hpad => ?_)
    have halpha := hall c3 ((List.append_nil u ▸ hsuffix).subset (by simp))
    exact absurd hpad (ne_pad_of_isAlpha halpha)
  | @two c0 c1 h0 h1 =>
    have henc : enc (dec [c0, c1, pad, pad]) = quadChars (encg1 (blockTriple ⟨c0, c1, pad, pad⟩).o0) := by
      rw [dec_block, blockBytes_of_two_pads rfl rfl]
      rfl
    rw [henc, quadChars_eq_iff, encg1_blockTriple_iff h0 h1, discardedBitsZero_append_block]
    simp
  | @one c0 c1 c2 h0 h1 h2 =>
    have hne := ne_pad_of_isAlpha h2
    have henc : enc (dec [c0, c1, c2, pad]) =
        quadChars (encg2 (blockTriple ⟨c0, c1, c2, pad⟩).o0 (blockTriple ⟨c0, c1, c2, pad⟩).o1) := by
      rw [dec_block, blockBytes_of_one_pad hne rfl]
      rfl
    rw [henc, quadChars_eq_iff, encg2_blockTriple_iff h0 h1 h2, discardedBitsZero_append_block]
    simp [hne]

end Sys2Proof.Machine
end

section
/-! DECG by the shape of its block, and on what the group encoders leave (42_decoder.md R82, R86). -/

namespace Sys2Proof.Machine

theorem exec_decg_of_vgroup {s : State} {q : Quad} (hq : lanesOf s.din = q) (h : vgroup q = true) :
    exec .decg s = .next (succeedGroup (blockWord q) (blockCount q) s) := by
  subst hq
  rw [exec_group rfl, groupVerdict, if_pos h]
  rfl

theorem exec_decg_of_not_vgroup {s : State} (h : ¬ vgroup (lanesOf s.din) = true) :
    exec .decg s = .next (raise .formatError s) := by
  rw [exec_group rfl, groupVerdict, if_neg h]
  rfl

/-- The low bytes of a word, zero-extended, are its low lanes (R36). -/
theorem setWidth_low_lanes (w : Word) :
    (w.extractLsb 23 0).setWidth 32 = 0x00#8 ++ (lane 2 w ++ (lane 1 w ++ lane 0 w)) ∧
    (w.extractLsb 15 0).setWidth 32 = 0x0000#16 ++ (lane 1 w ++ lane 0 w) ∧
    (w.extractLsb 7 0).setWidth 32 = 0x000000#24 ++ lane 0 w := by
  have h10 : lane 1 w ++ lane 0 w = w.extractLsb' 0 16 := BitVec.extractLsb'_append_extractLsb'_eq_extractLsb' rfl
  have h210 : lane 2 w ++ w.extractLsb' 0 16 = w.extractLsb' 0 24 :=
    BitVec.extractLsb'_append_extractLsb'_eq_extractLsb' rfl
  rw [h10, h210]
  exact ⟨BitVec.setWidth_eq_append (by omega), BitVec.setWidth_eq_append (by omega),
    BitVec.setWidth_eq_append (by omega)⟩

end Sys2Proof.Machine
end

section
/-! How CHECK and DECODE end by the checks (42_decoder.md R83, R84), and DECODE after ENCODE (R86). -/

namespace Sys2Proof.Machine

open Sys2Proof.Safety

variable {s : State}

/-- DECODE and CHECK refuse an input outside the grammar alike (R83, R84). -/
theorem exec_of_input_not_valid {i : Instr} (hi : i = .decode ∨ i = .check)
    (hin : s.src.toNat + s.len.toNat ≤ s.config.memSize) (h : ¬ valid (input s) = true) :
    exec i s = .next (raise .formatError s) := by
  have hinside : s.insideMem s.srcAddr s.inLen = true := decide_eq_true hin
  rcases hi with rfl | rfl
  all_goals
    rw [exec_stream rfl, streamVerdict, hinside]
    simp [h, State.endStream]

theorem exec_check_of_valid (hin : s.src.toNat + s.len.toNat ≤ s.config.memSize) (h : valid (input s) = true) :
    exec .check s = .next (succeedStream (decLength (input s)) s) := by
  have hinside : s.insideMem s.srcAddr s.inLen = true := decide_eq_true hin
  rw [exec_stream rfl, streamVerdict, hinside, h]
  rfl

/-- DECODE of a valid string in MEM comes to its output's verdict. -/
theorem exec_decode_of_valid (hin : s.src.toNat + s.len.toNat ≤ s.config.memSize) (h : valid (input s) = true) :
    exec .decode s = .next (s.endStream (outputVerdict s (decLength (input s)) (dec (input s)))) := by
  have hinside : s.insideMem s.srcAddr s.inLen = true := decide_eq_true hin
  rw [exec_stream rfl, streamVerdict, hinside, h]
  rfl

/-- The checks on the output range raise one class (R84). -/
theorem outputVerdict_cases (s : State) (m : Nat) (out : List Byte) :
    outputVerdict s m out = .error .invalidArgument ∨ outputVerdict s m out = .ok (out, m) := by
  unfold outputVerdict
  split_ifs
  · exact .inl rfl
  · exact .inl rfl
  · exact .inr rfl

theorem exec_decode_of_output_outside (hin : s.src.toNat + s.len.toNat ≤ s.config.memSize)
    (hvalid : valid (input s) = true) (h : s.config.memSize < s.dst.toNat + decLength (input s)) :
    exec .decode s = .next (raise .invalidArgument s) := by
  rw [exec_decode_of_valid hin hvalid, outputVerdict_of_outside h]
  rfl

theorem exec_decode_of_overlap (hin : s.src.toNat + s.len.toNat ≤ s.config.memSize) (hvalid : valid (input s) = true)
    (hout : s.dst.toNat + decLength (input s) ≤ s.config.memSize)
    (h : overlaps s.src.toNat s.len.toNat s.dst.toNat (decLength (input s)) = true) :
    exec .decode s = .next (raise .invalidArgument s) := by
  rw [exec_decode_of_valid hin hvalid, outputVerdict_of_inside hout, h]
  rfl

theorem exec_decode_of_disjoint (hin : s.src.toNat + s.len.toNat ≤ s.config.memSize) (hvalid : valid (input s) = true)
    (hout : s.dst.toNat + decLength (input s) ≤ s.config.memSize)
    (h : overlaps s.src.toNat s.len.toNat s.dst.toNat (decLength (input s)) = false) :
    exec .decode s = .next (succeedStream (decLength (input s)) (s.writeRange s.dst.toNat (dec (input s)))) := by
  rw [exec_decode_of_valid hin hvalid, outputVerdict_of_inside hout, h]
  rfl

/-- DECODE that succeeds has stored `dec` of its input at x[DST] (R84). -/
theorem readByte_of_decode {t : State} (h : exec .decode s = .next t) (hst : t.status = 0x00000000#32) {k : Nat}
    (hk : k < (dec (input s)).length) : t.readByte (s.dst.toNat + k) = (dec (input s))[k] := by
  cases exec_cases h with
  | error e => exact absurd hst (statusOfError_ne_zero e)
  | group _ _ hg => exact absurd hg (by decide)
  | decode _ _ _ _ => exact readByte_writeRange_inside s _ _ k hk

/-- After ENCODE that succeeds, its output is the input of a command with its DST as SRC and OLEN as LEN (R86). -/
theorem input_after_encode {t : State} (hconfig : s.config.wf = true) (h : exec .encode s = .next t)
    (hst : t.status = 0x00000000#32) (e : Word) :
    input { t with src := s.dst, len := t.olen, dst := e } = enc (input s) := by
  obtain ⟨-, holen⟩ := olen_of_encode hconfig h hst
  have hlen : (enc (input s)).length = t.olen.toNat := by rw [enc_length, input_length, holen]
  refine List.ext_getElem (by rw [hlen, input_length]) (fun k h1 h2 => ?_)
  exact (readRange_getElem _ _ _ k h1).trans (readByte_of_encode h hst h2)

end Sys2Proof.Machine
end

section
/-! The obligations of 42_decoder.md. -/

namespace Sys2Proof.Proofs

open Sys2Proof.Machine Sys2Proof.Safety

/-- Settles O16: the shapes are DECG's test, and PAD's index is that of its RLUT entry. -/
theorem decgDecodesOneBlock : Obligations.DecgDecodesOneBlock := by
  refine ⟨decode_encode .decg, fun s => ⟨fun h0 h1 h2 h3 => ?_, fun h0 h1 h2 h3 => ?_, fun h0 h1 h2 h3 => ?_,
    fun h => exec_decg_of_not_vgroup (fun hv => h ((vgroup_iff _).1 hv))⟩⟩
  · have hne := ne_pad_of_isAlpha h3
    rw [exec_decg_of_vgroup rfl ((vgroup_iff _).2 ⟨h0, h1, .inl ⟨h2, h3⟩⟩), blockWord_of_no_pad hne,
      blockCount_eq_three hne, blockTriple_eq, reconstruct_eq]
    rfl
  · have hne := ne_pad_of_isAlpha h2
    rw [exec_decg_of_vgroup rfl ((vgroup_iff _).2 ⟨h0, h1, .inr (.inl ⟨h2, h3⟩)⟩), blockWord_of_one_pad hne h3,
      blockCount_eq_two hne h3, blockTriple_eq, reconstruct_eq]
    rfl
  · rw [exec_decg_of_vgroup rfl ((vgroup_iff _).2 ⟨h0, h1, .inr (.inr ⟨h2, h3⟩)⟩), blockWord_of_two_pads h2 h3,
      blockCount_eq_one h2 h3, blockTriple_eq, reconstruct_eq]
    rfl

/-- Settles O17: the block that a group encoder packs into DOUT has a final-group shape, and its bytes are DIN's. -/
theorem decgInvertsTheGroupEncoders : Obligations.DecgInvertsTheGroupEncoders := by
  intro s
  obtain ⟨hthree, htwo, hone⟩ := setWidth_low_lanes s.din
  refine ⟨⟨_, _, rfl, exec_decg_of_vgroup (lanesOf_packLanes _) (vgroup_encg3 ..), ?_, ?_⟩,
    ⟨_, _, rfl, exec_decg_of_vgroup (lanesOf_packLanes _) (vgroup_encg2 ..), ?_, ?_⟩,
    ⟨_, _, rfl, exec_decg_of_vgroup (lanesOf_packLanes _) (vgroup_encg1 ..), ?_, ?_⟩⟩
  · rw [succeedGroup_dout, blockWord_of_no_pad (alpha_ne_pad _), blockTriple_encg3, hthree]
  · rw [succeedGroup_status, blockCount_eq_three (alpha_ne_pad _), statusOk_three]
  · rw [succeedGroup_dout, blockWord_of_one_pad (alpha_ne_pad _) rfl, blockTriple_encg2, htwo]
  · rw [succeedGroup_status, blockCount_eq_two (alpha_ne_pad _) rfl, statusOk_two]
  · rw [succeedGroup_dout, blockWord_of_two_pads rfl rfl, blockTriple_encg1, hone]
  · rw [succeedGroup_status, blockCount_eq_one rfl rfl, statusOk_one]

/-- Settles O20: a slice across two sextets is a shifted sum of masked and shifted sextets, with nothing cut off. -/
theorem reconstructorIsTheBitSlice : Obligations.ReconstructorIsTheBitSlice := by
  intro i0 i1 i2 i3
  have hmask : i3.toNat &&& 0b111111 = i3.toNat := Nat.and_two_pow_sub_one_of_lt_two_pow (n := 6) i3.isLt
  rw [reconstruct_eq]
  refine ⟨?_, ?_, ?_, rfl⟩
  · rw [BitVec.toNat_append, extractLsb_top_toNat i1 (by omega)]
  · rw [BitVec.toNat_append, extractLsb_zero_toNat, extractLsb_top_toNat i2 (by omega)]
    rfl
  · rw [BitVec.toNat_append, extractLsb_zero_toNat, hmask]
    rfl

/-- Settles O24, by the shape of the last block. -/
theorem validIffTheRegularExpressionMatches : Obligations.ValidIffTheRegularExpressionMatches :=
  valid_iff_grammar

/-- Settles O25: a position lies before the PAD characters, or is one of them. -/
theorem padStandsOnlyAtTheEndOfAValidString : Obligations.PadStandsOnlyAtTheEndOfAValidString := by
  refine ⟨rfl, fun t ht => ⟨pads_le t, fun k hk => ?_⟩⟩
  obtain ⟨u, hu, hsplit⟩ := eq_append_pads_of_valid ht
  generalize pads t = p at hsplit ⊢
  subst hsplit
  rw [List.length_append, List.length_replicate] at hk ⊢
  rcases Nat.lt_or_ge k u.length with hfront | hend
  · have halpha := hu _ (List.getElem_mem hfront)
    rw [List.getElem_append_left hfront]
    exact ⟨iff_of_false (ne_pad_of_isAlpha halpha) (by omega), fun _ => halpha⟩
  · rw [List.getElem_append_right hend, List.getElem_replicate]
    exact ⟨iff_of_true rfl (by omega), fun h => absurd rfl h⟩

/-- Settles O26: a valid string has whole blocks, and at most two of its characters are PAD. -/
theorem decodedLengthLaw : Obligations.DecodedLengthLaw := by
  intro t ht
  have hmod := length_mod_four_of_valid ht
  have hpads := pads_le t
  refine ⟨rfl, by omega, dec_length ht, ?_⟩
  unfold decLength
  omega

/-- Settles O27: past g blocks the output is `dec` of the string past g blocks, and a block with another after it holds
no PAD. -/
theorem decReconstructsBlocksInOrder : Obligations.DecReconstructsBlocksInOrder := by
  intro t ht
  refine ⟨rfl, dec_length ht, fun g h => ?_⟩
  obtain ⟨hvalid, hdec⟩ := drop_dec ht (g := g) (by omega)
  have hsplit : t.drop (4 * g) = t[4 * g] :: t[4 * g + 1] :: t[4 * g + 2] :: t[4 * g + 3] :: t.drop (4 * g + 4) := by
    rw [List.drop_eq_getElem_cons (by omega), List.drop_eq_getElem_cons (by omega),
      List.drop_eq_getElem_cons (by omega), List.drop_eq_getElem_cons h]
  rw [hsplit] at hvalid hdec
  refine ⟨hdec ▸ take_dec_block hvalid, fun hmore => ?_⟩
  have hrest : t.drop (4 * g + 4) ≠ [] := by simpa using hmore
  obtain ⟨h3, -⟩ := valid_block_append hrest hvalid
  exact if_pos (ne_pad_of_isAlpha h3)

/-- Settles O28: the bytes a block writes do not reach into the index of a PAD position. -/
theorem paddingIndexIsUnobservable : Obligations.PaddingIndexIsUnobservable := by
  intro q x y hq
  obtain ⟨-, -, ⟨h2, h3⟩ | ⟨h2, h3⟩ | ⟨h2, h3⟩⟩ := (vgroup_iff q).1 hq
  · simp only [if_neg (ne_pad_of_isAlpha h2), if_neg (ne_pad_of_isAlpha h3), blockBytes, blockTriple_eq]
  · have hne := ne_pad_of_isAlpha h2
    rw [blockBytes_of_one_pad hne h3, blockCount_eq_two hne h3, if_neg hne, blockTriple_eq]
    rfl
  · rw [blockBytes_of_two_pads h2 h3, blockCount_eq_one h2 h3, blockTriple_eq]
    rfl

/-- Settles O29, by induction on the groups of the input. -/
theorem decodingInvertsEncoding : Obligations.DecodingInvertsEncoding :=
  valid_enc_and_dec_enc

/-- Settles O30: the first byte takes the top two bits of c1's index, and the second the top four of c2's. -/
theorem discardedBitsAreAcceptedAndDropped : Obligations.DiscardedBitsAreAcceptedAndDropped := by
  refine ⟨fun u c0 c1 c1' h halpha hbits => ?_, fun u c0 c1 c2 c2' h halpha hne hbits => ?_, by decide, by decide,
    fun t => enc_dec_eq_iff⟩
  · obtain ⟨-, -, hv⟩ := (valid_append_block_iff ..).1 h
    obtain ⟨h0, -, -⟩ := (vgroup_iff _).1 hv
    refine valid_and_dec_replace_last h ((vgroup_iff _).2 ⟨h0, halpha, .inr (.inr ⟨rfl, rfl⟩)⟩) ?_
    rw [blockBytes_of_two_pads rfl rfl, blockBytes_of_two_pads rfl rfl, blockTriple_eq, blockTriple_eq,
      reconstruct_o0_congr hbits]
  · obtain ⟨-, -, hv⟩ := (valid_append_block_iff ..).1 h
    obtain ⟨h0, h1, -⟩ := (vgroup_iff _).1 hv
    refine valid_and_dec_replace_last h ((vgroup_iff _).2 ⟨h0, h1, .inr (.inl ⟨halpha, rfl⟩)⟩) ?_
    rw [blockBytes_of_one_pad (ne_pad_of_isAlpha halpha) rfl, blockBytes_of_one_pad hne rfl, blockTriple_eq,
      blockTriple_eq, reconstruct_o1_congr hbits]
    rfl

/-- Settles O32: the checks in order, the grammar by its exact predicate. -/
theorem checkValidatesAString : Obligations.CheckValidatesAString := by
  refine ⟨decode_encode .check, fun s => ?_⟩
  rw [← valid_iff_grammar]
  exact ⟨exec_stream_of_input_outside rfl, exec_of_input_not_valid (.inr rfl), exec_check_of_valid⟩

/-- Settles O33: the checks in order, and after them the stores of the output range alone. -/
theorem decodeDecodesAString : Obligations.DecodeDecodesAString := by
  refine ⟨decode_encode .decode, fun s => ?_⟩
  have hm : s.len.toNat / 4 * 3 - pads (input s) = decLength (input s) := by rw [decLength, input_length]
  simp only [hm, ← valid_iff_grammar]
  refine ⟨exec_stream_of_input_outside rfl, exec_of_input_not_valid (.inl rfl), exec_decode_of_output_outside,
    fun hin hv hd hov => exec_decode_of_overlap hin hv hd ((overlaps_eq_true ..).2 hov), fun hin hv hd hov => ?_⟩
  have hdisjoint := Bool.eq_false_iff.2 ((overlaps_eq_true ..).not.2 hov)
  have hlen := dec_length hv
  refine ⟨_, exec_decode_of_disjoint hin hv hd hdisjoint, rfl, fun k hk => ?_,
    fun x hx => readByte_writeRange_outside s _ _ x (by rwa [hlen])⟩
  have hout : k < (dec (input s)).length := hlen ▸ hk
  rw [readByte_succeedStream, readByte_writeRange_inside s _ _ k hout, List.getElem?_eq_getElem hout]

/-- Settles O35: DECODE's input is the encoding of ENCODE's, which decodes to it. -/
theorem encodeThenDecodeRestoresTheBuffer : Obligations.EncodeThenDecodeRestoresTheBuffer := by
  intro s t u e hconfig henc hst hdec hsu
  have hin := input_after_encode hconfig henc hst e
  obtain ⟨hvalid, hback⟩ := valid_enc_and_dec_enc (input s)
  have holen := olen_of_decode_or_check (.inl rfl) hdec hsu
  rw [hin, ← dec_length hvalid, hback, input_length] at holen
  refine ⟨BitVec.eq_of_toNat_eq holen, fun k hk => ?_⟩
  have hbytes := readByte_of_decode hdec hsu (k := k) (by rwa [hin, hback, input_length])
  simp only [hin, hback] at hbytes
  rw [hbytes]
  exact readRange_getElem ..

/-- Settles O36: both check the input alike, and DECODE's later checks raise no FormatError. -/
theorem checkPredictsDecode : Obligations.CheckPredictsDecode := by
  intro s t u hcheck hdecode
  rcases Nat.lt_or_ge s.config.memSize (s.src.toNat + s.len.toNat) with hout | hin
  · rw [exec_stream_of_input_outside rfl hout] at hcheck hdecode
    cases hcheck
    cases hdecode
    exact ⟨fun h => absurd h (statusOfError_ne_zero .invalidArgument), Iff.rfl⟩
  · by_cases hvalid : valid (input s) = true
    · rw [exec_check_of_valid hin hvalid] at hcheck
      rw [exec_decode_of_valid hin hvalid] at hdecode
      cases hcheck
      cases hdecode
      obtain hv | hv := outputVerdict_cases s (decLength (input s)) (dec (input s))
      · rw [hv]
        exact ⟨fun h => absurd h (statusOfError_ne_zero .invalidArgument), by simp [State.endStream, statusOfError]⟩
      · rw [hv]
        exact ⟨fun _ => ⟨rfl, rfl⟩, by simp [State.endStream]⟩
    · rw [exec_of_input_not_valid (.inr rfl) hin hvalid] at hcheck
      rw [exec_of_input_not_valid (.inl rfl) hin hvalid] at hdecode
      cases hcheck
      cases hdecode
      exact ⟨fun h => absurd h (statusOfError_ne_zero .formatError), Iff.rfl⟩

end Sys2Proof.Proofs
end

section
/-! The step of a pending register access, and which host actions are refused (43_control.md R90 to R93). -/

namespace Sys2Proof.Machine

variable {s : State} {rest : List HostAction}

theorem step_of_pending_write {r : Reg} {v : Word} (hp : s.pending = actionWr r v :: rest) :
    step s = writeReg r v { s with pending := rest } := by
  rw [step_of_pending hp, perform_actionWr]

theorem step_of_pending_read {r : Reg} (hp : s.pending = actionRd r :: rest) :
    step s = readReg r { s with pending := rest } := by
  rw [step_of_pending hp, perform_actionRd]

/-- A register that holds a value answers it; the block keeps its state (R41, R91). -/
theorem step_of_pending_read_of_value {r : Reg} {v : Word} (hv : s.regValue r = some v)
    (hp : s.pending = actionRd r :: rest) :
    step s = .next { s with pending := rest, returned := s.returned ++ [.reg v] } := by
  have hv' : ({ s with pending := rest } : State).regValue r = some v := hv
  rw [step_of_pending_read hp, readReg, hv']

/-- A write is refused at the three read-only registers; a write to CMD is not, because every command completes. -/
theorem writeReg_refused_iff (r : Reg) (v : Word) (s : State) :
    (∃ x, writeReg r v s = .refused x) ↔ r = .status ∨ r = .dout ∨ r = .olen := by
  cases r with
  | cmd =>
    obtain ⟨t, ht⟩ := command_completes v s
    simp [writeReg, ht]
  | _ => simp [writeReg]

/-- CMD alone has no value to read (R16). -/
theorem readReg_refused_iff (r : Reg) (s : State) : (∃ x, readReg r s = .refused x) ↔ r = .cmd := by
  cases r <;> simp [readReg, State.regValue]

/-- The offsets with no register are those R32 does not list. -/
theorem regAt_eq_none_iff (offset : Nat) :
    regAt offset = none ↔ offset ∉ [0x00, 0x04, 0x08, 0x0C, 0x10, 0x14, 0x18, 0x1C] := by
  unfold regAt
  split <;> simp_all

theorem regOffset_mem_readOnlyOffsets_iff (r : Reg) :
    regOffset r ∈ readOnlyOffsets ↔ r = .status ∨ r = .dout ∨ r = .olen := by
  cases r <;> decide

theorem regOffset_eq_zero_iff (r : Reg) : regOffset r = 0x00 ↔ r = .cmd := by
  cases r <;> decide

/-- The register accesses R93 lists. -/
def RegAccessUndefined (t : Transaction) : Prop :=
  t.address ∉ [0x00, 0x04, 0x08, 0x0C, 0x10, 0x14, 0x18, 0x1C] ∨ t.width ≠ 32 ∨ t.address % 4 ≠ 0 ∨
    (t.address ∈ readOnlyOffsets ∧ t.transfer ≠ .read) ∨ (t.address = 0x00 ∧ t.transfer = .read)

/-- A 32-bit access at a register's offset is undefined by its register and direction alone. -/
theorem regAccessUndefined_at_register (space : Space) (r : Reg) (x : Transfer 32) :
    RegAccessUndefined ⟨space, regOffset r, 32, x⟩ ↔
      ((r = .status ∨ r = .dout ∨ r = .olen) ∧ x ≠ .read) ∨ (r = .cmd ∧ x = .read) := by
  have hlisted := (regAt_eq_none_iff (regOffset r)).not.1 (by simp)
  simp only [RegAccessUndefined, hlisted, regOffset_aligned, regOffset_mem_readOnlyOffsets_iff, regOffset_eq_zero_iff,
    ne_eq, not_true_eq_false, false_or]

/-- A 32-bit access at a register's offset is refused if it writes a read-only register or reads CMD. -/
theorem regAccess_at_register_refused_iff (space : Space) (r : Reg) (x : Transfer 32) (s : State) :
    (∃ e, regAccess ⟨space, regOffset r, 32, x⟩ s = .refused e) ↔
      ((r = .status ∨ r = .dout ∨ r = .olen) ∧ x ≠ .read) ∨ (r = .cmd ∧ x = .read) := by
  cases x with
  | read =>
    have hread : regAccess ⟨space, regOffset r, 32, .read⟩ s = readReg r s := perform_actionRd r s
    simp [hread, readReg_refused_iff]
  | write v =>
    have hwrite : regAccess ⟨space, regOffset r, 32, .write v⟩ s = writeReg r v s := perform_actionWr r v s
    simp [hwrite, writeReg_refused_iff]

theorem regAccess_refused_iff (t : Transaction) (s : State) :
    (∃ e, regAccess t s = .refused e) ↔ RegAccessUndefined t := by
  obtain ⟨space, address, width, transfer⟩ := t
  by_cases hw : width = 32
  · subst hw
    by_cases ha : address % 4 = 0
    · cases hr : regAt address with
      | none => simp [regAccess, ha, hr, RegAccessUndefined, (regAt_eq_none_iff address).1 hr]
      | some r =>
        obtain rfl := regOffset_of_regAt hr
        exact (regAccess_at_register_refused_iff space r transfer s).trans
          (regAccessUndefined_at_register space r transfer).symm
    · simp [regAccess, ha, RegAccessUndefined]
  · simp [regAccess, hw, RegAccessUndefined]

theorem memAccess_refused_iff (t : Transaction) (s : State) :
    (∃ x, memAccess t s = .refused x) ↔ t.width ≠ 8 ∨ s.config.memSize ≤ t.address := by
  obtain ⟨space, address, width, transfer⟩ := t
  by_cases hw : width = 8
  · subst hw
    by_cases ha : s.config.memSize ≤ address
    · simp [memAccess, ha]
    · cases transfer <;> simp [memAccess, ha]
  · simp [memAccess, hw]

theorem perform_bus_reg {t : Transaction} (h : t.space = .reg) (s : State) : perform (.bus t) s = regAccess t s := by
  simp only [perform, h]

theorem perform_bus_mem {t : Transaction} (h : t.space = .mem) (s : State) : perform (.bus t) s = memAccess t s := by
  simp only [perform, h]

/-- A refused step ends every run through it. -/
theorem run_succ_of_refused {x : Refusal} (h : step s = .refused x) (k : Nat) :
    Host.Core.run core (k + 1) s = .refused x := by
  have hstep : core.step s = .refused x := h
  simp [Host.Core.run, hstep]

end Sys2Proof.Machine
end

section
/-! The obligations of 43_control.md. -/

namespace Sys2Proof.Proofs

open Sys2Proof.Machine

/-- Settles O48: a store is read back at its address only, a load returns the byte, and an address outside MEM is
refused in either direction. -/
theorem hostMemAccesses : Obligations.HostMemAccesses := by
  intro s rest a v
  refine ⟨fun hp ha => ⟨_, (step_of_pending hp).trans (perform_actionMwr v ha), rfl, ?_, fun x hx => ?_⟩,
    fun hp ha => (step_of_pending hp).trans (perform_actionMrd ha), fun hp ha => ?_⟩
  · rw [readByte_writeByte, if_pos rfl]
  · rw [readByte_writeByte, if_neg hx]
    rfl
  · obtain hp | hp := hp <;> rw [step_of_pending hp] <;> exact (memAccess_refused_iff _ _).2 (.inr ha)

/-- Settles O49, by the space of the transaction; RESET is never refused. -/
theorem refusedExactlyTheUndefinedAccesses : Obligations.RefusedExactlyTheUndefinedAccesses := by
  refine ⟨fun s a rest hp => ?_, fun s x => run_succ_of_refused⟩
  rw [step_of_pending hp]
  cases a with
  | reset => simp
  | bus t =>
    cases hspace : t.space with
    | reg => simp [perform_bus_reg hspace, regAccess_refused_iff, RegAccessUndefined, hspace]
    | mem => simp [perform_bus_mem hspace, memAccess_refused_iff, hspace]

/-- Settles O10: the only word of CLR is that of its row, and CLR writes nothing but STATUS. -/
theorem clrClearsStatusOnly : Obligations.ClrClearsStatusOnly := by
  refine ⟨fun w => ⟨eq_encode_of_decode, ?_⟩, fun _ => rfl⟩
  rintro rfl
  exact decode_encode .clr

/-- Settles O46, register by register: the meaning of a write, and the refusals. -/
theorem hostRegisterWrites : Obligations.HostRegisterWrites := by
  intro s rest v
  refine ⟨step_of_pending_write, step_of_pending_write, step_of_pending_write, step_of_pending_write,
    fun hp => ⟨fun i => step_of_pending_command hp, fun e => step_of_pending_illegal hp⟩, fun r hr hp => ?_⟩
  rw [step_of_pending_write hp]
  exact (writeReg_refused_iff r v _).2 hr

/-- Settles O47: each register but CMD has a value to return. -/
theorem hostRegisterReads : Obligations.HostRegisterReads := by
  intro s rest returns
  refine ⟨step_of_pending_read_of_value rfl, step_of_pending_read_of_value rfl, step_of_pending_read_of_value rfl,
    step_of_pending_read_of_value rfl, step_of_pending_read_of_value rfl, step_of_pending_read_of_value rfl,
    step_of_pending_read_of_value rfl, fun hp => ?_⟩
  rw [step_of_pending_read hp]
  exact (readReg_refused_iff .cmd _).2 rfl

end Sys2Proof.Proofs
end

section
/-! The causes of each command's errors in the order of the checks, and the error bits they set (60_exceptions.md R95, R96,
R102, R103). -/

namespace Sys2Proof.Machine

open Sys2Proof.Safety

/-- The output range of `m` bytes at x[DST] is past MEM, or it overlaps the input range (R42, R43). -/
def OutputRefused (s : State) (m : Nat) : Prop :=
  s.config.memSize < s.dst.toNat + m ∨ overlaps s.src.toNat s.len.toNat s.dst.toNat m = true

/-- The causes of R96 by command and class, each beside the earlier checks of R102 that have passed. `exec_of_raises` and
`raises_or_success` tie them to the model. -/
inductive Raises (s : State) : Instr → ErrorClass → Prop where
  | notAlpha : isAlpha (lane 0 s.din) = false → Raises s .rlut .formatError
  | notVgroup : vgroup (lanesOf s.din) = false → Raises s .decg .formatError
  | inputOutside {i : Instr} : isStream i = true → s.config.memSize < s.src.toNat + s.len.toNat →
      Raises s i .invalidArgument
  | inputNotValid {i : Instr} : i = .decode ∨ i = .check → s.src.toNat + s.len.toNat ≤ s.config.memSize →
      valid (input s) = false → Raises s i .formatError
  | encodeOutput : s.src.toNat + s.len.toNat ≤ s.config.memSize → OutputRefused s (encLength s.len.toNat) →
      Raises s .encode .invalidArgument
  | decodeOutput : s.src.toNat + s.len.toNat ≤ s.config.memSize → valid (input s) = true →
      OutputRefused s (decLength (input s)) → Raises s .decode .invalidArgument

/-- The bit of STATUS that reports a class (R17, R95). -/
def errorBit : ErrorClass → Word → Bool
  | .formatError => statusFmt
  | .invalidArgument => statusArg
  | .illegalCommand => statusOp

variable {s t : State} {i : Instr} {e : ErrorClass}

theorem outputVerdict_of_refused {m : Nat} (h : OutputRefused s m) (out : List Byte) :
    outputVerdict s m out = .error .invalidArgument := by
  rcases Nat.lt_or_ge s.config.memSize (s.dst.toNat + m) with hout | hin
  · exact outputVerdict_of_outside hout
  · rw [outputVerdict_of_inside hin, if_pos (h.resolve_left (Nat.not_lt.2 hin))]

/-- A cause makes its command raise its class, whatever the later checks would find (R102). -/
theorem exec_of_raises (h : Raises s i e) : exec i s = .next (raise e s) := by
  cases h with
  | notAlpha h => exact exec_rlut_of_not_valid h
  | notVgroup h => exact exec_decg_of_not_vgroup (Bool.eq_false_iff.1 h)
  | inputOutside hi h => exact exec_stream_of_input_outside hi h
  | inputNotValid hi hin h => exact exec_of_input_not_valid hi hin (Bool.eq_false_iff.1 h)
  | encodeOutput hin h =>
    rw [exec_encode_of_input_inside hin, outputVerdict_of_refused h]
    rfl
  | decodeOutput hin hvalid h =>
    rw [exec_decode_of_valid hin hvalid, outputVerdict_of_refused h]
    rfl

/-- A stream command with no cause to raise passes all its checks, and succeeds. -/
theorem raises_or_success_of_isStream (hi : isStream i = true) (s : State) :
    (∃ e, Raises s i e) ∨ ∃ t, exec i s = .next t ∧ reportsError t.status = false := by
  have hsuccess (n : Nat) (u : State) : reportsError (succeedStream n u).status = false :=
    reportsError_statusOk (Nat.zero_le 4)
  rcases Nat.lt_or_ge s.config.memSize (s.src.toNat + s.len.toNat) with hout | hin
  · exact .inl ⟨_, .inputOutside hi hout⟩
  cases i with
  | encode =>
    by_cases hr : OutputRefused s (encLength s.len.toNat)
    · exact .inl ⟨_, .encodeOutput hin hr⟩
    · obtain ⟨hd, hov⟩ := not_or.1 hr
      exact .inr ⟨_, exec_encode_of_disjoint hin (Nat.not_lt.1 hd) (Bool.eq_false_iff.2 hov), hsuccess _ _⟩
  | decode =>
    cases hv : valid (input s) with
    | false => exact .inl ⟨_, .inputNotValid (.inl rfl) hin hv⟩
    | true =>
      by_cases hr : OutputRefused s (decLength (input s))
      · exact .inl ⟨_, .decodeOutput hin hv hr⟩
      · obtain ⟨hd, hov⟩ := not_or.1 hr
        exact .inr ⟨_, exec_decode_of_disjoint hin hv (Nat.not_lt.1 hd) (Bool.eq_false_iff.2 hov), hsuccess _ _⟩
  | check =>
    cases hv : valid (input s) with
    | false => exact .inl ⟨_, .inputNotValid (.inr rfl) hin hv⟩
    | true => exact .inr ⟨_, exec_check_of_valid hin hv, hsuccess _ _⟩
  | _ => cases hi

/-- The causes are all there are: without one a command succeeds, and no success reports an error (R104). -/
theorem raises_or_success (i : Instr) (s : State) :
    (∃ e, Raises s i e) ∨ ∃ t, exec i s = .next t ∧ reportsError t.status = false := by
  have hsuccess (out : Word) {cnt : Nat} (hcnt : cnt ≤ 4) : reportsError (succeedGroup out cnt s).status = false :=
    reportsError_statusOk hcnt
  cases i with
  | clr => exact .inr ⟨_, rfl, reportsError_statusOk (Nat.zero_le 4)⟩
  | enc3 | enc2 | enc1 | alut => exact .inr ⟨_, rfl, hsuccess _ (by decide)⟩
  | rlut =>
    cases hv : isAlpha (lane 0 s.din) with
    | false => exact .inl ⟨_, .notAlpha hv⟩
    | true => exact .inr ⟨_, exec_rlut_of_valid (congrArg (RlutEntry.mk · _) hv), hsuccess _ (by decide)⟩
  | decg =>
    cases hv : vgroup (lanesOf s.din) with
    | false => exact .inl ⟨_, .notVgroup hv⟩
    | true => exact .inr ⟨_, exec_decg_of_vgroup rfl hv, hsuccess _ (Nat.le_succ_of_le (blockCount_le _))⟩
  | encode | decode | check => exact raises_or_success_of_isStream rfl s

/-- A command after which STATUS reports an error raised one, by one of its causes. -/
theorem exists_raises_of_reportsError (h : exec i s = .next t) (herr : reportsError t.status = true) :
    ∃ e, Raises s i e ∧ t = raise e s := by
  obtain ⟨e, hr⟩ | ⟨u, hu, hok⟩ := raises_or_success i s
  · rw [exec_of_raises hr] at h
    cases h
    exact ⟨e, hr, rfl⟩
  · rw [hu] at h
    cases h
    exact absurd herr (Bool.eq_false_iff.1 hok)

theorem errorBit_statusOfError_iff (e e' : ErrorClass) : errorBit e (statusOfError e') = true ↔ e' = e := by
  cases e <;> cases e' <;> decide

theorem reportsError_of_errorBit {w : Word} (h : errorBit e w = true) : reportsError w = true := by
  cases e <;> simp only [errorBit] at h <;> simp [reportsError, h]

/-- After a command the bit of a class is 1 iff the command had a cause for it. -/
theorem errorBit_iff_raises (h : exec i s = .next t) (e : ErrorClass) : errorBit e t.status = true ↔ Raises s i e := by
  constructor
  · intro hbit
    obtain ⟨e', hr, rfl⟩ := exists_raises_of_reportsError h (reportsError_of_errorBit hbit)
    exact (errorBit_statusOfError_iff e e').1 hbit ▸ hr
  · intro hr
    rw [exec_of_raises hr] at h
    cases h
    exact (errorBit_statusOfError_iff e e).2 rfl

theorem command_of_raises_formatError (h : Raises s i .formatError) :
    i = .rlut ∨ i = .decg ∨ i = .decode ∨ i = .check := by
  cases h with
  | notAlpha _ => exact .inl rfl
  | notVgroup _ => exact .inr (.inl rfl)
  | inputNotValid hi _ _ => exact .inr (.inr hi)

theorem isStream_iff (i : Instr) : isStream i = true ↔ i = .encode ∨ i = .decode ∨ i = .check := by
  cases i <;> decide

theorem isStream_of_raises_invalidArgument (h : Raises s i .invalidArgument) : isStream i = true := by
  cases h with
  | inputOutside hi _ => exact hi
  | encodeOutput _ _ => rfl
  | decodeOutput _ _ _ => rfl

theorem raises_rlut_formatError_iff : Raises s .rlut .formatError ↔ isAlpha (lane 0 s.din) = false := by
  refine ⟨fun h => ?_, .notAlpha⟩
  cases h with
  | notAlpha h => exact h
  | inputNotValid hi _ _ => exact absurd hi (by decide)

theorem raises_decg_formatError_iff : Raises s .decg .formatError ↔ vgroup (lanesOf s.din) = false := by
  refine ⟨fun h => ?_, .notVgroup⟩
  cases h with
  | notVgroup h => exact h
  | inputNotValid hi _ _ => exact absurd hi (by decide)

theorem raises_check_invalidArgument_iff :
    Raises s .check .invalidArgument ↔ s.config.memSize < s.src.toNat + s.len.toNat := by
  refine ⟨fun h => ?_, .inputOutside rfl⟩
  cases h with
  | inputOutside _ h => exact h

end Sys2Proof.Machine
end

section
/-! What the idle step keeps (60_exceptions.md R113), and that no command reads or writes the host's returned values. -/

namespace Sys2Proof.Machine

theorem step_of_pending_nil {s : State} (h : s.pending = []) : step s = .next s := by
  simp [step, h]

theorem ExecResult.returned {i : Instr} {s t : State} (h : ExecResult s i t) : t.returned = s.returned := by
  cases h <;> rfl

end Sys2Proof.Machine
end

section
/-! The obligations of 60_exceptions.md. -/

namespace Sys2Proof.Proofs

open Sys2Proof.Machine Sys2Proof.Safety

/-- Settles O6: exec is total, and none of its outcomes touches what is not the block's. -/
theorem everyCommandCompletes : Obligations.EveryCommandCompletes := by
  intro i s
  obtain ⟨t, ht⟩ := exec_completes i s
  obtain ⟨hconfig, hpending, hdraws⟩ := (exec_cases ht).frame
  exact ⟨t, ht, hconfig, hdraws, hpending, (exec_cases ht).returned⟩

/-- Settles O42: the three codes, and a CMD write that reports an error raised IllegalCommand or had a cause to raise. -/
theorem errorsWriteStatusOnly : Obligations.ErrorsWriteStatusOnly := by
  refine ⟨fun s => ⟨rfl, rfl, rfl⟩, fun w s t h herr => ?_⟩
  cases hw : decode w with
  | ok i =>
    rw [command_of_ok s hw] at h
    obtain ⟨e, -, ht⟩ := exists_raises_of_reportsError h herr
    exact ⟨e, ht⟩
  | error d =>
    rw [command_of_error s hw] at h
    cases h
    exact ⟨.illegalCommand, rfl⟩

/-- Settles O44: each error bit is 1 iff the command has a cause for its class. The reset state with LEN = 1
gives each FormatError a cause, and with LEN = 65 its input range is past MEM. -/
theorem eachCommandRaisesOnlyItsClasses : Obligations.EachCommandRaisesOnlyItsClasses := by
  refine ⟨fun i s t h => ?_, fun w s t d hw h => ?_, fun i hi => ?_, fun i hi => ?_⟩
  · have hfmt : statusFmt t.status = true ↔ Raises s i .formatError := errorBit_iff_raises h .formatError
    have harg : statusArg t.status = true ↔ Raises s i .invalidArgument := errorBit_iff_raises h .invalidArgument
    have hop : statusOp t.status = true ↔ Raises s i .illegalCommand := errorBit_iff_raises h .illegalCommand
    rw [Bool.eq_false_iff, ne_eq, hop, hfmt, harg]
    refine ⟨command_of_raises_formatError, fun hr => (isStream_iff i).1 (isStream_of_raises_invalidArgument hr), nofun,
      ?_, ?_, ?_⟩
    · rintro rfl
      exact raises_rlut_formatError_iff
    · rintro rfl
      exact raises_decg_formatError_iff
    · rintro rfl
      exact raises_check_invalidArgument_iff
  · rw [command_of_error s hw] at h
    cases h
    simp only [raise_status]
    decide
  · have hcause : Raises { State.reset with len := 1#32 } i .formatError := by
      obtain rfl | rfl | hi := hi
      · exact .notAlpha (by decide)
      · exact .notVgroup (by decide)
      · exact .inputNotValid hi (by decide) (by decide)
    exact ⟨_, _, exec_of_raises hcause, rfl⟩
  · have hcause : Raises { State.reset with len := 65#32 } i .invalidArgument :=
      .inputOutside ((isStream_iff i).2 hi) (by decide)
    exact ⟨_, _, exec_of_raises hcause, rfl⟩

/-- Settles O45: each cause under the checks before it, and IllegalCommand before them all. -/
theorem theFirstErrorInOrderIsReported : Obligations.TheFirstErrorInOrderIsReported :=
  ⟨fun _ _ s hw => command_of_error s hw, fun _ _ hi hout => exec_of_raises (.inputOutside hi hout),
    fun _ _ hi hin hv => exec_of_raises (.inputNotValid hi hin hv),
    fun _ hin hout => exec_of_raises (.encodeOutput hin hout),
    fun _ hin hv hout => exec_of_raises (.decodeOutput hin hv hout)⟩

/-- Settles O5: with an empty queue there is no action to perform. -/
theorem idleBlockRetainsAllState : Obligations.IdleBlockRetainsAllState :=
  fun _ => step_of_pending_nil

end Sys2Proof.Proofs
end

section
/-! Which registers a command and a host action leave (10_state.md R18 to R23, 70_reset_and_hazards.md R118). -/

namespace Sys2Proof.Machine

open Sys2Proof.Safety

variable {s t : State} {i : Instr}

/-- A command leaves the registers it takes its operands from. -/
theorem ExecResult.operands (h : ExecResult s i t) :
    t.din = s.din ∧ t.src = s.src ∧ t.len = s.len ∧ t.dst = s.dst := by
  cases h <;> exact ⟨rfl, rfl, rfl, rfl⟩

/-- Only the success of a group command writes DOUT (R19). -/
theorem ExecResult.dout_eq_or (h : ExecResult s i t) :
    t.dout = s.dout ∨ (isGroup i = true ∧ reportsError t.status = false) := by
  cases h with
  | group _ _ hg _ hcnt _ => exact .inr ⟨hg, reportsError_statusOk hcnt⟩
  | _ => exact .inl rfl

/-- Only the success of a stream command writes OLEN (R23). -/
theorem ExecResult.olen_eq_or (h : ExecResult s i t) :
    t.olen = s.olen ∨ (isStream i = true ∧ reportsError t.status = false) := by
  cases h with
  | check | encode | decode => exact .inr ⟨rfl, reportsError_statusOk (Nat.zero_le 4)⟩
  | _ => exact .inl rfl

/-- Of the host's actions, only RESET and a CMD write change the registers the host cannot write. -/
theorem PerformResult.outputs {a : HostAction} (h : PerformResult s a t) (hreset : a ≠ .reset)
    (hcmd : ∀ w, a ≠ actionCmd w) : t.status = s.status ∧ t.dout = s.dout ∧ t.olen = s.olen := by
  cases h with
  | reset => exact absurd rfl hreset
  | command _ => exact absurd rfl (hcmd _)
  | _ => exact ⟨rfl, rfl, rfl⟩

end Sys2Proof.Machine
end

section
/-! The obligations of 70_reset_and_hazards.md. -/

namespace Sys2Proof.Proofs

open Sys2Proof.Machine Sys2Proof.Safety

/-- Settles O41, by the outcomes of a CMD write, legal or not, and of the other host actions. -/
theorem registersKeepTheirValuesAcrossCommands : Obligations.RegistersKeepTheirValuesAcrossCommands := by
  refine ⟨fun w s t h => ?_, fun a s t hreset hcmd h => (perform_cases h).outputs hreset hcmd⟩
  obtain ⟨i, hw, hi⟩ | ⟨e, -, rfl⟩ := command_cases h
  · obtain ⟨hdin, hsrc, hlen, hdst⟩ := hi.operands
    exact ⟨hdin, hsrc, hlen, hdst, fun hne => ⟨i, hw, hi.dout_eq_or.resolve_left hne⟩,
      fun hne => ⟨i, hw, hi.olen_eq_or.resolve_left hne⟩⟩
  · exact ⟨rfl, rfl, rfl, rfl, fun hne => absurd rfl hne, fun hne => absurd rfl hne⟩

/-- Settles O50: the step of a pending RESET is `resetBlock`, which holds 0 in every register and no written byte. -/
theorem resetActionClearsTheBlock : Obligations.ResetActionClearsTheBlock := by
  intro s rest hp
  exact ⟨_, (step_of_pending hp).trans (perform_reset _), rfl, rfl, rfl, rfl, rfl, rfl, rfl,
    readByte_resetOf s.config (s.draws + 1), rfl, rfl, rfl, rfl⟩

end Sys2Proof.Proofs
end
